-- ==== Sys2Proof/Word.lean ====
section
/-! DEFINITION. The words of the block: bytes (spec/00_scope.md R7) and command words
(spec/30_encoding.md R70), and the mask of spec/00_scope.md R9. -/

namespace Sys2Proof

/-- A byte, 0..255 (R7); also the width of one OUTQ symbol (spec/10_state.md R33). -/
abbrev Byte := BitVec 8

/-- A command word: 16 bits, bit 0 the least significant (spec/30_encoding.md R70, spec/00_scope.md R8). -/
abbrev Word := BitVec 16

/-- `mask(n)` is `2^n - 1` (spec/00_scope.md R9). -/
def mask (n : Nat) : Nat := 2 ^ n - 1

end Sys2Proof
end

