-- ==== Sys2Proof/Config.lean ====
section
/-! DEFINITION. What an implementation fixes (the OPEN parameters of spec/00_scope.md R6) and the
free values: constants without a body, so that nothing can be proved of what they are. -/

namespace Sys2Proof.Config

/-- The OPEN parameters of spec/00_scope.md R6: a machine is one choice of them. -/
structure Params where
  /-- BUF_CAP, the size of BUFMEM in bytes: a natural number, at most `2^32 - 1` (D15). -/
  bufCap : Fin 4294967296
  /-- OUTQ_CAP, how many symbols OUTQ can hold: a natural number of at least 1, or unbounded,
  which is `none` (D16). -/
  outqCap : Option ℕ+
deriving DecidableEq, Repr, Inhabited

/-- The parameters of the machine that `exec` and `step` run on. No body: every claim about `exec`
and `step` holds whatever they are (log entry 1). -/
opaque params : Params

/-- How many of the symbols emitted so far the host sees while their transaction is not committed.
A free value: spec/20_memory.md R62 leaves "none, some or all" open. Applied to the position (log
entry 7). -/
opaque outqVisible : Nat → Nat

/-- What the host reads at an index of BUFMEM (second argument) that holds no result, at a position
(first argument). A free value: spec/93_implementation_defined.md U4 to U7 (log entries 5 and 6). -/
opaque bufUnspecified : Nat → Nat → Byte

end Sys2Proof.Config
end

