-- ==== Sys2Proof/Syntax.lean ====
section
/-! DEFINITION. The commands: one constructor per row of spec/opcode_table.json. -/

namespace Sys2Proof

/-- A command with its operand, the 8-bit `data` field where the command takes one
(spec/30_encoding.md R71 to R73). -/
inductive Instr where
  /-- ENC.BEGIN (spec/41_encode.md R130). -/
  | encBegin
  /-- ENC.BYTE b (spec/41_encode.md R131). -/
  | encByte (b : Byte)
  /-- ENC.END (spec/41_encode.md R132). -/
  | encEnd
  /-- DECB.BEGIN (spec/42_decode_bytes.md R150). -/
  | decbBegin
  /-- DECB.UNIT u (spec/42_decode_bytes.md R151). -/
  | decbUnit (u : Byte)
  /-- DECB.END (spec/42_decode_bytes.md R152). -/
  | decbEnd
  /-- D64.BEGIN k; well formed when `data[7:3] = 0` (spec/43_decode_base64.md R170). -/
  | d64Begin (k : Byte)
  /-- D64.UNIT u (spec/43_decode_base64.md R172). -/
  | d64Unit (u : Byte)
  /-- D64.END (spec/43_decode_base64.md R173). -/
  | d64End
  /-- DBUF.BEGIN (spec/44_decode_buffer.md R190). -/
  | dbufBegin
  /-- DBUF.UNIT u (spec/44_decode_buffer.md R191). -/
  | dbufUnit (u : Byte)
  /-- DBUF.END (spec/44_decode_buffer.md R192). -/
  | dbufEnd
deriving DecidableEq, Repr

end Sys2Proof
end

