-- ==== Sys2Proof/WellFormed.lean ====
section
/-! DEFINITION. Which commands are well formed: those that some command word decodes to
(spec/30_encoding.md R72, R76). -/

namespace Sys2Proof

/-- The one operand restriction of the encoding: D64.BEGIN needs `data[7:3] = 0`
(spec/30_encoding.md R72). A unit with bit 7 set is well formed: it decodes, and executing it raises
InvalidInput (R72). -/
def Instr.wellFormed : Instr → Bool
  | .encBegin => true
  | .encByte _ => true
  | .encEnd => true
  | .decbBegin => true
  | .decbUnit _ => true
  | .decbEnd => true
  | .d64Begin k => decide (k.toNat ≤ 7)
  | .d64Unit _ => true
  | .d64End => true
  | .dbufBegin => true
  | .dbufUnit _ => true
  | .dbufEnd => true

/-- `Instr.wellFormed` as a proposition. -/
abbrev Instr.WellFormed (i : Instr) : Prop := i.wellFormed = true

end Sys2Proof
end

