-- ==== Sys2Proof/Decode.lean ====
section
/-! DEFINITION. The decoder, total on every 16-bit word and rejecting by name, then the encoder
(spec/30_encoding.md R70 to R77, R80). -/

namespace Sys2Proof

/-- Why a word is illegal: the cases of spec/30_encoding.md R76. -/
inductive Illegal where
  /-- `aux` is not 0. -/
  | nonzeroAux
  /-- Opcode 0x0, 0xD, 0xE or 0xF. -/
  | reservedOpcode
  /-- `data` is not 0 on a command without an operand. -/
  | nonzeroData
  /-- `data[7:3]` is not 0 on D64.BEGIN. -/
  | residueTooWide
deriving DecidableEq, Repr

/-- What a word decodes to: one command with its operand, or the verdict `illegal` (R74). -/
inductive Decoded where
  | command (i : Instr)
  | illegal (why : Illegal)
deriving DecidableEq, Repr

/-- Field `op`, bits [15:12] (R71). -/
def opField (w : Word) : BitVec 4 := w.extractLsb' 12 4

/-- Field `aux`, bits [11:8] (R71). -/
def auxField (w : Word) : BitVec 4 := w.extractLsb' 8 4

/-- Field `data`, bits [7:0] (R71). -/
def dataField (w : Word) : Byte := w.extractLsb' 0 8

/-- A command without an operand: its `data` must be 0 (R71, R74). -/
def withoutOperand (i : Instr) (data : Byte) : Decoded :=
  if data = 0 then .command i else .illegal .nonzeroData

/-- The opcode map of R73 and R74, for a word whose `aux` is 0. -/
def decodeOp (op : BitVec 4) (data : Byte) : Decoded :=
  match op.toNat with
  | 0x1 => withoutOperand .encBegin data
  | 0x2 => .command (.encByte data)
  | 0x3 => withoutOperand .encEnd data
  | 0x4 => withoutOperand .decbBegin data
  | 0x5 => .command (.decbUnit data)
  | 0x6 => withoutOperand .decbEnd data
  | 0x7 => if data.extractLsb' 3 5 = 0 then .command (.d64Begin data) else .illegal .residueTooWide
  | 0x8 => .command (.d64Unit data)
  | 0x9 => withoutOperand .d64End data
  | 0xA => withoutOperand .dbufBegin data
  | 0xB => .command (.dbufUnit data)
  | 0xC => withoutOperand .dbufEnd data
  | _ => .illegal .reservedOpcode

/-- The decoder of R74. It looks at no state (R77). -/
def decode (w : Word) : Decoded :=
  if auxField w = 0 then decodeOp (opField w) (dataField w) else .illegal .nonzeroAux

/-- The opcode of a command (R73). -/
def Instr.opcode : Instr → BitVec 4
  | .encBegin => 0x1
  | .encByte _ => 0x2
  | .encEnd => 0x3
  | .decbBegin => 0x4
  | .decbUnit _ => 0x5
  | .decbEnd => 0x6
  | .d64Begin _ => 0x7
  | .d64Unit _ => 0x8
  | .d64End => 0x9
  | .dbufBegin => 0xA
  | .dbufUnit _ => 0xB
  | .dbufEnd => 0xC

/-- The `data` field of a command: its operand, and 0 where it takes none (R80). -/
def Instr.data : Instr → Byte
  | .encBegin => 0
  | .encByte b => b
  | .encEnd => 0
  | .decbBegin => 0
  | .decbUnit u => u
  | .decbEnd => 0
  | .d64Begin k => k
  | .d64Unit u => u
  | .d64End => 0
  | .dbufBegin => 0
  | .dbufUnit u => u
  | .dbufEnd => 0

/-- The one word of a well-formed command: `word = (op << 12) | data`, `aux` always 0 (R80). -/
def encode (i : Instr) : Word := BitVec.ofNat 16 ((i.opcode.toNat <<< 12) ||| i.data.toNat)

/-- The word whose low `nbits` bits are those of `w`, the bits above being 0: bit 0 of `w` is the
word's least significant bit, as in spec/opcode_table.json. -/
def tableWord (nbits w : Nat) : Word := BitVec.ofNat 16 (w % 2 ^ nbits)

/-- The instruction the decoder reads from a row of spec/opcode_table.json. -/
def decodeTableWord (nbits w : Nat) : Option Instr :=
  match decode (tableWord nbits w) with
  | .command i => some i
  | .illegal _ => none

end Sys2Proof
end

