-- ==== Sys2Proof/Machine/State.lean ====
section
/-! DEFINITION. The architectural state (spec/10_state.md R21), the reasons a step can stop, and the
state after reset (R41). -/

namespace Sys2Proof.Machine

/-- MODE, the 3-bit register of R22; the values 5 to 7 are never written (U10, log entry 15). -/
inductive Mode where
  | idle
  | enc
  | decb
  | d64
  | dbuf
deriving DecidableEq, Repr

/-- FAULT, the 3-bit register of R31, with the causes of spec/60_exceptions.md R221; the codes 6 and 7
are never written (U10, log entry 15). -/
inductive FaultCode where
  /-- NONE, code 0. -/
  | noFault
  /-- IllegalCommand, code 1 (R222). -/
  | illegalCommand
  /-- SequenceError, code 2 (R223). -/
  | sequenceError
  /-- InvalidInput, code 3 (R224). -/
  | invalidInput
  /-- OutputOverflow, code 4 (R225). -/
  | outputOverflow
  /-- LengthMismatch, code 5 (R226). -/
  | lengthMismatch
deriving DecidableEq, Repr

/-- What the host can send (spec/70_reset_and_hazards.md R272): a command word, or the reset pulse. -/
inductive HostEvent where
  | command (w : Word)
  | reset
deriving DecidableEq, Repr

/-- BUFMEM as (index, byte) pairs in one canonical form (`Memory.wf`). An index that is not listed has
no stored value: the block never reads BUFMEM, and the host sees a free value there (log entry 5). -/
abbrev Memory := List Host.Cell

/-- The record of spec/10_state.md R21, then the model's own three fields. -/
structure State where
  /-- MODE (R22). -/
  mode : Mode
  /-- ACC, the accumulator window (R23). -/
  acc : BitVec 19
  /-- LEN, the number of valid window bits (R24). -/
  len : BitVec 5
  /-- P, the padding bits D64 mode strips (R27). -/
  p : BitVec 3
  /-- ICNT, input elements modulo 8 (R28). -/
  icnt : BitVec 3
  /-- OCNT, symbols emitted or bytes written modulo 2^32 (R29). -/
  ocnt : BitVec 32
  /-- DONE (R30). -/
  done : Bool
  /-- FAULT (R31). -/
  fault : FaultCode
  /-- FCMD, the word that faulted (R32). -/
  fcmd : Word
  /-- OUTQ, in emission order (R33). -/
  outq : List Byte
  /-- BUFMEM (R34). -/
  bufmem : Memory
  /-- The model's own: the host events not yet taken, oldest first (log entry 2). -/
  input : List HostEvent
  /-- The model's own: the position in the list of command words (R37, log entry 4). -/
  pos : Nat
  /-- The model's own: how many bytes, from index 0 on, are the result of the last committed DBUF
  transaction, which the host may read until the next DBUF.BEGIN (spec/70_reset_and_hazards.md R264,
  R272; log entry 21). No command reads it. -/
  bufResult : Nat
deriving DecidableEq, Repr

/-- The ways a step could end outside the machine's own behaviour. There are none: a fault of the
block is a next state with FAULT and FCMD written (spec/60_exceptions.md R228), so this type has no
constructor (safe; log entry 18). -/
inductive Fault where
deriving DecidableEq, Repr

/-- The ways the model could decline an instruction. -/
inductive Refusal where
  /-- An instruction without a meaning. Raised by an arm of `exec` that has none: no arm does. Safe. -/
  | notModelled (mnemonic : String)
deriving DecidableEq, Repr

/-- The machine right after reset: the table of spec/10_state.md R41. BUFMEM lists nothing (its
contents are unspecified, so it holds no result), no host event is pending, and the position is 0
(R37). -/
def State.reset : State where
  mode := .idle
  acc := 0
  len := 0
  p := 0
  icnt := 0
  ocnt := 0
  done := false
  fault := .noFault
  fcmd := 0
  outq := []
  bufmem := []
  input := []
  pos := 0
  bufResult := 0

end Sys2Proof.Machine
end

