-- ==== Sys2Proof/Machine/Ops.lean ====
section
/-! DEFINITION. The named operations: BUFMEM, the bit-accumulation primitives, the output sinks,
transaction start and commit, taking a fault, and reset (spec/40_accumulator.md R101 to R113,
spec/60_exceptions.md R228, spec/70_reset_and_hazards.md R260).

An operation that can raise a fault answers `Except FaultCode`; a command undoes all its effects when
one does (R100). Arithmetic is on naturals and narrowed at the register write (spec/00_scope.md R9);
what that means where a precondition fails is log entry 11. -/

namespace Sys2Proof.Machine

/-! ### BUFMEM -/

/-- The byte stored at index `i`, if one was written (log entry 5). -/
def Memory.read : Memory → Nat → Option Byte
  | [], _ => none
  | (a, b) :: rest, i => if a = i then some b else Memory.read rest i

/-- `MemWrite(i, 1, v)` of spec/20_memory.md R51, keeping the indices strictly rising. -/
def Memory.write : Memory → Nat → Byte → Memory
  | [], i, v => [(i, v)]
  | (a, b) :: rest, i, v =>
    if i < a then (i, v) :: (a, b) :: rest
    else if i = a then (i, v) :: rest
    else (a, b) :: Memory.write rest i v

/-- Every index of the list is above `i`, and they rise strictly. -/
def Memory.wfAbove : Nat → Memory → Bool
  | _, [] => true
  | i, (a, _) :: rest => decide (i < a) && Memory.wfAbove a rest

/-- The canonical form: indices strictly rising. An unlisted index has no value, so no entry can equal
what an unlisted index reads as. -/
def Memory.wf : Memory → Bool
  | [] => true
  | (a, _) :: rest => Memory.wfAbove a rest

/-! ### The bit accumulator -/

/-- `SHIFT_IN(v, nb)` (R101): append `nb` new bits at the low end of the window. -/
def shiftIn (v nb : Nat) (s : State) : State :=
  { s with
    acc := BitVec.ofNat 19 ((s.acc.toNat <<< nb) ||| v)
    len := BitVec.ofNat 5 (s.len.toNat + nb) }

/-- `TAKE(n)` (R102): remove the `n` oldest bits of the window and return them. -/
def take (n : Nat) (s : State) : Nat × State :=
  let len := s.len.toNat - n
  ((s.acc.toNat >>> len) &&& mask n,
    { s with
      len := BitVec.ofNat 5 len
      acc := BitVec.ofNat 19 (s.acc.toNat &&& mask len) })

/-- `PAD(n)` (R104): the remaining bits as one last `n`-bit value, zero-filled at the low end; the
window is emptied. -/
def pad (n : Nat) (s : State) : Nat × State :=
  ((s.acc.toNat <<< (n - s.len.toNat)) &&& mask n, { s with acc := 0, len := 0 })

/-- `DROP(p)` (R106): discard the `p` newest bits of the window. -/
def drop (p : Nat) (s : State) : State :=
  { s with
    acc := BitVec.ofNat 19 (s.acc.toNat >>> p)
    len := BitVec.ofNat 5 (s.len.toNat - p) }

/-! ### The base64 alphabet -/

/-- `B64CHAR(i)` (R107): the ASCII code of the base64 character with index `i`, for `i` in 0..63. The
index order and the codes are general knowledge (G1, G2; log entry 13). -/
def b64Char (i : Nat) : Byte :=
  if i ≤ 25 then BitVec.ofNat 8 (0x41 + i)
  else if i ≤ 51 then BitVec.ofNat 8 (0x61 + (i - 26))
  else if i ≤ 61 then BitVec.ofNat 8 (0x30 + (i - 52))
  else if i = 62 then 0x2B
  else 0x2F

/-- `PADCHAR` (R107): the ASCII code of `=`. -/
def padChar : Byte := 0x3D

/-! ### The output sinks -/

/-- `|OUTQ| == OUTQ_CAP`, never true when OUTQ_CAP is unbounded (R108). -/
def outqFull (c : Config.Params) (s : State) : Bool :=
  match c.outqCap with
  | none => false
  | some n => decide (s.outq.length = (n : Nat))

/-- `emit(v)` (R108): append one symbol to OUTQ and count it. -/
def emit (c : Config.Params) (v : Byte) (s : State) : Except FaultCode State :=
  if outqFull c s then .error .outputOverflow
  else .ok { s with outq := s.outq ++ [v], ocnt := s.ocnt + 1 }

/-- `bufwrite(v)` (R109): write one byte to BUFMEM at index OCNT and count it. -/
def bufwrite (c : Config.Params) (v : Byte) (s : State) : Except FaultCode State :=
  if (c.bufCap : Nat) ≤ s.ocnt.toNat then .error .outputOverflow
  else .ok { s with bufmem := s.bufmem.write s.ocnt.toNat v, ocnt := s.ocnt + 1 }

/-! ### Extraction -/

/-- `while LEN >= threshold: emit(symbol(TAKE(n)))`, for at most `fuel` passes. -/
def drainLoop (c : Config.Params) (threshold n : Nat) (symbol : Nat → Byte) :
    Nat → State → Except FaultCode State
  | 0, s => .ok s
  | fuel + 1, s =>
    if threshold ≤ s.len.toNat then do
      let t ← emit c (symbol (take n s).1) (take n s).2
      drainLoop c threshold n symbol fuel t
    else .ok s

/-- `while LEN >= threshold: emit(symbol(TAKE(n)))`. Every pass lowers LEN, so LEN bounds the passes. -/
def drain (c : Config.Params) (threshold n : Nat) (symbol : Nat → Byte) (s : State) :
    Except FaultCode State :=
  drainLoop c threshold n symbol s.len.toNat s

/-- The seven-bit unit extractor `EXTRACT7` (R103). -/
def extract7 (c : Config.Params) (s : State) : Except FaultCode State :=
  drain c 7 7 (BitVec.ofNat 8) s

/-- The byte packer `PACK8(sink)` (R105): a single conditional, not a loop. -/
def pack8 (sink : Byte → State → Except FaultCode State) (s : State) : Except FaultCode State :=
  if 8 ≤ s.len.toNat then sink (BitVec.ofNat 8 (take 8 s).1) (take 8 s).2 else .ok s

/-- `if LEN > 0: emit(symbol(PAD(n)))`: the last, zero-filled group of ENC.END and D64.END
(spec/41_encode.md R132, spec/43_decode_base64.md R173). -/
def flush (c : Config.Params) (n : Nat) (symbol : Nat → Byte) (s : State) : Except FaultCode State :=
  if 0 < s.len.toNat then emit c (symbol (pad n s).1) (pad n s).2 else .ok s

/-- `while OCNT mod 4 != 0: emit(PADCHAR)`, for at most `fuel` passes. -/
def padLoop (c : Config.Params) : Nat → State → Except FaultCode State
  | 0, s => .ok s
  | fuel + 1, s =>
    if s.ocnt.toNat % 4 = 0 then .ok s
    else do
      let t ← emit c padChar s
      padLoop c fuel t

/-- `while OCNT mod 4 != 0: emit(PADCHAR)` (spec/43_decode_base64.md R173). Every pass adds 1 to OCNT,
so three passes are enough. -/
def padToFour (c : Config.Params) (s : State) : Except FaultCode State :=
  padLoop c 3 s

/-! ### Transaction start, element and commit -/

/-- `INIT(m, p)` (R111). BUFMEM is not touched. -/
def init (m : Mode) (p : BitVec 3) (s : State) : State :=
  { s with mode := m, acc := 0, len := 0, p := p, icnt := 0, ocnt := 0, done := false, outq := [] }

/-- `COMMIT` (R112). OCNT, ICNT, OUTQ and BUFMEM are kept. -/
def commit (s : State) : State :=
  { s with acc := 0, len := 0, p := 0, mode := .idle, done := true }

/-- DBUF.BEGIN takes the last DBUF result from the host (spec/70_reset_and_hazards.md R264). The model's
bookkeeping; BUFMEM is not touched (log entry 21). -/
def withdrawBuf (s : State) : State :=
  { s with bufResult := 0 }

/-- DBUF.END makes `BUFMEM[0 .. OCNT-1]` a result (spec/10_state.md R30). The model's bookkeeping (log
entry 21). -/
def publishBuf (s : State) : State :=
  { s with bufResult := s.ocnt.toNat }

/-- `ACCEPT` (R113): one more input element, modulo 8. -/
def accept (s : State) : State :=
  { s with icnt := s.icnt + 1 }

/-- The position in the list of command words moves past one word, whatever the word
(spec/10_state.md R37). -/
def countWord (s : State) : State :=
  { s with pos := s.pos + 1 }

/-! ### Taking a fault, and the way out of it -/

/-- `raise F(w)` (spec/60_exceptions.md R228), applied to the state before the command: the fault
record. Everything else stays, the bytes of BUFMEM among it (what the host may make of them then is
log entry 6). There is no return from a fault (R231). -/
def raise (f : FaultCode) (w : Word) (s : State) : State :=
  { s with fault := f, fcmd := w, outq := [], done := false }

/-- The reset step (spec/70_reset_and_hazards.md R260): every register at its value of
spec/10_state.md R41, BUFMEM unchanged, its contents no longer specified (R34). It is the only way to clear FAULT. -/
def resetCodec (s : State) : State :=
  { State.reset with bufmem := s.bufmem, input := s.input, pos := s.pos }

/-- An illegal word `w` (R100, spec/60_exceptions.md R222): ignored while FAULT is set (R230),
otherwise it raises IllegalCommand. -/
def illegalCommand (w : Word) (s : State) : State :=
  if s.fault = .noFault then raise .illegalCommand w s else s

/-- The end of a command whose word is `w`: all its effects, or, when it raised a fault, none of them but
the fault record on the state `s` before it (R100, spec/20_memory.md R58). -/
def conclude (w : Word) (s : State) : Except FaultCode State → State
  | .ok t => t
  | .error f => raise f w s

/-- The common step of a decoded command (R100): ignored while FAULT is set (R230), SequenceError in
the wrong MODE, then its own effect. Its command word is the one word that decodes to it. -/
def runCommand (i : Instr) (required : Mode) (effect : State → Except FaultCode State)
    (s : State) : State :=
  if s.fault = .noFault then
    if s.mode = required then conclude (encode i) s (effect s)
    else raise .sequenceError (encode i) s
  else s

end Sys2Proof.Machine
end

