-- ==== Sys2Proof/Machine/Operands.lean ====
section
/-! DEFINITION. The operand forms (spec/30_encoding.md R72) and the checks on them. -/

namespace Sys2Proof.Machine

/-- `CHECK_UNIT(u, w)` (spec/40_accumulator.md R110): a unit with bit 7 set raises InvalidInput, before
any state changes. -/
def checkUnit (u : Byte) : Except FaultCode Unit :=
  if u.getLsbD 7 then .error .invalidInput else .ok ()

/-- D64.BEGIN's operand `k = data[2:0]` (spec/30_encoding.md R72). -/
def residue (data : Byte) : BitVec 3 := data.extractLsb' 0 3

/-- P for a declared residue `k`: `(7 * k) mod 8` (spec/43_decode_base64.md R170, R171). -/
def paddingOf (k : BitVec 3) : BitVec 3 := BitVec.ofNat 3 ((7 * k.toNat) % 8)

/-- Whether the units received disagree with the declared length: `(7 * ICNT) mod 8 != P`
(spec/43_decode_base64.md R173, spec/60_exceptions.md R226). -/
def lengthMismatch (s : State) : Bool := decide ((7 * s.icnt.toNat) % 8 ≠ s.p.toNat)

/-- The MODE a command requires (spec/30_encoding.md R73). -/
def requiredMode : Instr → Mode
  | .encBegin => .idle
  | .encByte _ => .enc
  | .encEnd => .enc
  | .decbBegin => .idle
  | .decbUnit _ => .decb
  | .decbEnd => .decb
  | .d64Begin _ => .idle
  | .d64Unit _ => .d64
  | .d64End => .d64
  | .dbufBegin => .idle
  | .dbufUnit _ => .dbuf
  | .dbufEnd => .dbuf

end Sys2Proof.Machine
end

