-- ==== Sys2Proof/Machine/DecodeBase64.lean ====
section
/-! DEFINITION. The decode-to-base64 family (spec/43_decode_base64.md). -/

namespace Sys2Proof.Machine

/-- D64.BEGIN k (R170): INIT(D64, (7 * k) mod 8). With `data[7:3]` not 0 its word is illegal (R170,
"Exceptions"); no word decodes to such a term. -/
def d64Begin (data : Byte) (s : State) : State :=
  if data.toNat ≤ 7 then
    runCommand (.d64Begin data) .idle (fun t => .ok (init .d64 (paddingOf (residue data)) t)) s
  else illegalCommand (encode (.d64Begin data)) s

/-- D64.UNIT u (R172): CHECK_UNIT, SHIFT_IN(u, 7), one character while LEN >= 6 + P, ACCEPT. -/
def d64Unit (c : Config.Params) (u : Byte) (s : State) : State :=
  runCommand (.d64Unit u) .d64 (fun t => do
    checkUnit u
    (drain c (6 + t.p.toNat) 6 b64Char (shiftIn u.toNat 7 t)).map accept) s

/-- D64.END (R173): the length check, DROP(P), the last character zero-filled, `=` to a multiple of 4,
COMMIT. -/
def d64End (c : Config.Params) (s : State) : State :=
  runCommand .d64End .d64 (fun t =>
    if lengthMismatch t then .error .lengthMismatch
    else do
      let t ← flush c 6 b64Char (drop t.p.toNat t)
      (padToFour c t).map commit) s

/-- D64.BEGIN k on the machine. -/
def execD64Begin (k : Byte) (s : State) : Host.Outcome State Fault Refusal := .next (d64Begin k s)

/-- D64.UNIT u on the machine. -/
def execD64Unit (u : Byte) (s : State) : Host.Outcome State Fault Refusal :=
  .next (d64Unit Config.params u s)

/-- D64.END on the machine. -/
def execD64End (s : State) : Host.Outcome State Fault Refusal := .next (d64End Config.params s)

end Sys2Proof.Machine
end

