-- ==== Sys2Proof/Machine/DecodeBuffer.lean ====
section
/-! DEFINITION. The decode-to-buffer family (spec/44_decode_buffer.md). -/

namespace Sys2Proof.Machine

/-- DBUF.BEGIN (R190). BUFMEM is not cleared; the host may no longer take the last result from it. -/
def dbufBegin (s : State) : State :=
  runCommand .dbufBegin .idle (fun t => .ok (init .dbuf 0 (withdrawBuf t))) s

/-- DBUF.UNIT u (R191): CHECK_UNIT, SHIFT_IN(u, 7), PACK8(bufwrite), ACCEPT. -/
def dbufUnit (c : Config.Params) (u : Byte) (s : State) : State :=
  runCommand (.dbufUnit u) .dbuf (fun t => do
    checkUnit u
    (pack8 (bufwrite c) (shiftIn u.toNat 7 t)).map accept) s

/-- DBUF.END (R192): COMMIT; COUNT keeps the number of bytes written, which are now a result. -/
def dbufEnd (s : State) : State :=
  runCommand .dbufEnd .dbuf (fun t => .ok (commit (publishBuf t))) s

/-- DBUF.BEGIN on the machine. -/
def execDbufBegin (s : State) : Host.Outcome State Fault Refusal := .next (dbufBegin s)

/-- DBUF.UNIT u on the machine. -/
def execDbufUnit (u : Byte) (s : State) : Host.Outcome State Fault Refusal :=
  .next (dbufUnit Config.params u s)

/-- DBUF.END on the machine. -/
def execDbufEnd (s : State) : Host.Outcome State Fault Refusal := .next (dbufEnd s)

end Sys2Proof.Machine
end

