-- ==== Sys2Proof/Machine/DecodeBytes.lean ====
section
/-! DEFINITION. The decode-to-bytes family (spec/42_decode_bytes.md). -/

namespace Sys2Proof.Machine

/-- DECB.BEGIN (R150). -/
def decbBegin (s : State) : State :=
  runCommand .decbBegin .idle (fun t => .ok (init .decb 0 t)) s

/-- DECB.UNIT u (R151): CHECK_UNIT, SHIFT_IN(u, 7), PACK8(emit), ACCEPT. -/
def decbUnit (c : Config.Params) (u : Byte) (s : State) : State :=
  runCommand (.decbUnit u) .decb (fun t => do
    checkUnit u
    (pack8 (emit c) (shiftIn u.toNat 7 t)).map accept) s

/-- DECB.END (R152): COMMIT; the trailing bits are dropped, not checked. -/
def decbEnd (s : State) : State :=
  runCommand .decbEnd .decb (fun t => .ok (commit t)) s

/-- DECB.BEGIN on the machine. -/
def execDecbBegin (s : State) : Host.Outcome State Fault Refusal := .next (decbBegin s)

/-- DECB.UNIT u on the machine. -/
def execDecbUnit (u : Byte) (s : State) : Host.Outcome State Fault Refusal :=
  .next (decbUnit Config.params u s)

/-- DECB.END on the machine. -/
def execDecbEnd (s : State) : Host.Outcome State Fault Refusal := .next (decbEnd s)

end Sys2Proof.Machine
end

