-- ==== Sys2Proof/Machine/Encode.lean ====
section
/-! DEFINITION. The encode family (spec/41_encode.md). Each command is written for any parameters,
then run on the machine's own. -/

namespace Sys2Proof.Machine

/-- ENC.BEGIN (R130). -/
def encBegin (s : State) : State :=
  runCommand .encBegin .idle (fun t => .ok (init .enc 0 t)) s

/-- ENC.BYTE b (R131): SHIFT_IN(b, 8), EXTRACT7, ACCEPT. -/
def encByte (c : Config.Params) (b : Byte) (s : State) : State :=
  runCommand (.encByte b) .enc (fun t => (extract7 c (shiftIn b.toNat 8 t)).map accept) s

/-- ENC.END (R132): emit(PAD(7)) if bits remain, then COMMIT. -/
def encEnd (c : Config.Params) (s : State) : State :=
  runCommand .encEnd .enc (fun t => (flush c 7 (BitVec.ofNat 8) t).map commit) s

/-- ENC.BEGIN on the machine. -/
def execEncBegin (s : State) : Host.Outcome State Fault Refusal := .next (encBegin s)

/-- ENC.BYTE b on the machine. -/
def execEncByte (b : Byte) (s : State) : Host.Outcome State Fault Refusal :=
  .next (encByte Config.params b s)

/-- ENC.END on the machine. -/
def execEncEnd (s : State) : Host.Outcome State Fault Refusal := .next (encEnd Config.params s)

end Sys2Proof.Machine
end

