-- ==== Sys2Proof/Machine/Dispatch.lean ====
section
/-! DEFINITION. One arm per command: the meaning it calls. -/

namespace Sys2Proof.Machine

/-- What a decoded command does to the state. -/
def exec (i : Instr) (s : State) : Host.Outcome State Fault Refusal :=
  match i with
  | .encBegin => Sys2Proof.Machine.execEncBegin s
  | .encByte b => Sys2Proof.Machine.execEncByte b s
  | .encEnd => Sys2Proof.Machine.execEncEnd s
  | .decbBegin => Sys2Proof.Machine.execDecbBegin s
  | .decbUnit u => Sys2Proof.Machine.execDecbUnit u s
  | .decbEnd => Sys2Proof.Machine.execDecbEnd s
  | .d64Begin k => Sys2Proof.Machine.execD64Begin k s
  | .d64Unit u => Sys2Proof.Machine.execD64Unit u s
  | .d64End => Sys2Proof.Machine.execD64End s
  | .dbufBegin => Sys2Proof.Machine.execDbufBegin s
  | .dbufUnit u => Sys2Proof.Machine.execDbufUnit u s
  | .dbufEnd => Sys2Proof.Machine.execDbufEnd s

end Sys2Proof.Machine
end

