-- ==== Sys2Proof/Machine/Fetch.lean ====
section
/-! DEFINITION. Taking the next host event from the command port (spec/20_memory.md R50,
spec/40_accumulator.md R100, spec/60_exceptions.md R233). -/

namespace Sys2Proof.Machine

/-- The state in which the next command runs: its word has left the command port, and the position in
the list of command words has advanced by 1, whatever the word (spec/10_state.md R37). -/
def takeWord (rest : List HostEvent) (s : State) : State :=
  { countWord s with input := rest }

/-- One command word (R100): decode it, then raise IllegalCommand or run the command. -/
def runWord (w : Word) (s : State) : Host.Outcome State Fault Refusal :=
  match decode w with
  | .illegal _ => .next (illegalCommand w s)
  | .command i => exec i s

/-- One step: the oldest host event is taken. With none pending the block holds its state and does
nothing (spec/60_exceptions.md R240, log entry 3). A reset is a step of its own and no command word, so
it leaves the position (log entry 4). -/
def takeEvent (s : State) : Host.Outcome State Fault Refusal :=
  match s.input with
  | [] => .next s
  | .reset :: rest => .next (resetCodec { s with input := rest })
  | .command w :: rest => runWord w (takeWord rest s)

/-- Put a command word on the command port, to be taken next. -/
def sendFirst (w : Word) (s : State) : State :=
  { s with input := .command w :: s.input }

end Sys2Proof.Machine
end

