-- ==== Sys2Proof/Machine/Step.lean ====
section
/-! DEFINITION. The step of the machine, and how a word is placed where it is fetched next. -/

namespace Sys2Proof.Machine

/-- One step of the machine: the oldest pending host event (spec/70_reset_and_hazards.md R267). -/
def step (s : State) : Host.Outcome State Fault Refusal := takeEvent s

/-- `s` with the table word placed at the head of the command port, where the next step takes it. It
stands for the host sending that word (log entry 2). -/
def State.withFetchWord (s : State) (nbits w : Nat) : State := sendFirst (tableWord nbits w) s

end Sys2Proof.Machine
end

