-- ==== Sys2Proof/Machine/Codec.lean ====
section
/-! DEFINITION. The codec for any parameters (spec/00_scope.md R6: "A Lean model takes the OPEN ones as
arguments"): commands, words and runs as functions on states, and the words of the four
pseudo-instructions (spec/30_encoding.md R83 to R86). -/

namespace Sys2Proof.Machine

/-- What a decoded command does to the state, for any parameters. -/
def effect (c : Config.Params) : Instr → State → State
  | .encBegin => encBegin
  | .encByte b => encByte c b
  | .encEnd => encEnd c
  | .decbBegin => decbBegin
  | .decbUnit u => decbUnit c u
  | .decbEnd => decbEnd
  | .d64Begin k => d64Begin k
  | .d64Unit u => d64Unit c u
  | .d64End => d64End c
  | .dbufBegin => dbufBegin
  | .dbufUnit u => dbufUnit c u
  | .dbufEnd => dbufEnd

/-- `step(w)` of spec/40_accumulator.md R100, for any parameters. -/
def issue (c : Config.Params) (w : Word) (s : State) : State :=
  match decode w with
  | .illegal _ => illegalCommand w s
  | .command i => effect c i s

/-- One host event, for any parameters: a command word, which also moves the position on
(spec/10_state.md R37), or a reset step, which does not (log entry 4). -/
def deliver (c : Config.Params) (s : State) : HostEvent → State
  | .command w => issue c w (countWord s)
  | .reset => resetCodec s

/-- A run: command words, with reset steps between them where the host asserts reset
(spec/70_reset_and_hazards.md R270). What the host sees in between is `hostOutq` and `hostBuf` of the
states on the way; each word moves the position, to which their free values are applied. -/
def runEvents (c : Config.Params) (events : List HostEvent) (s : State) : State :=
  events.foldl (deliver c) s

/-- A run without resets. -/
def runWords (c : Config.Params) (words : List Word) (s : State) : State :=
  words.foldl (fun t w => issue c w (countWord t)) s

/-- `encode b0, ..., b(n-1)` (spec/30_encoding.md R83). -/
def encodeWords (bs : List Byte) : List Word :=
  encode .encBegin :: bs.map (fun b => encode (.encByte b)) ++ [encode .encEnd]

/-- `decode.bytes u0, ..., u(n-1)` (spec/30_encoding.md R84). -/
def decodeBytesWords (us : List Byte) : List Word :=
  encode .decbBegin :: us.map (fun u => encode (.decbUnit u)) ++ [encode .decbEnd]

/-- `decode.base64 u0, ..., u(n-1)`, which declares `n mod 8` (spec/30_encoding.md R85). -/
def decodeBase64Words (us : List Byte) : List Word :=
  encode (.d64Begin (BitVec.ofNat 8 (us.length % 8))) :: us.map (fun u => encode (.d64Unit u))
    ++ [encode .d64End]

/-- `decode.buffer u0, ..., u(n-1)` (spec/30_encoding.md R86). -/
def decodeBufferWords (us : List Byte) : List Word :=
  encode .dbufBegin :: us.map (fun u => encode (.dbufUnit u)) ++ [encode .dbufEnd]

end Sys2Proof.Machine
end

