-- ==== Sys2Proof/Machine/Assembler.lean ====
section
/-! DEFINITION. The assembler: lines of text to command words (spec/30_encoding.md R78 to R80, R83 to
R86). What the spec leaves open of the text form is log entry 14. -/

namespace Sys2Proof.Machine

/-- Why the assembler refuses a line (R78, R79). -/
inductive AsmError where
  /-- The line holds no command. -/
  | noCommand
  /-- The mnemonic is none of R78 and of R83 to R86. -/
  | unknownMnemonic
  /-- An operand is neither a decimal nor a `0x` hexadecimal number. -/
  | notANumber
  /-- An operand is outside its range. -/
  | outOfRange
  /-- An operand is missing, or there is one too many. -/
  | operandCount
deriving DecidableEq, Repr

/-- What a mnemonic stands for. -/
inductive AsmForm where
  /-- A command without an operand. -/
  | plain (i : Instr)
  /-- A command with an operand in 0..255. -/
  | byte (mk : Byte → Instr)
  /-- `d64.begin`, with an operand in 0..7. -/
  | residue
  /-- A pseudo-instruction: a list of operands in 0..255, expanded to words. -/
  | list (expand : List Byte → List Word)

/-- The mnemonics (R78, R83 to R86), in lower case. -/
def asmForms : List (List Char × AsmForm) :=
  [("enc.begin".toList, .plain .encBegin), ("enc.byte".toList, .byte .encByte),
   ("enc.end".toList, .plain .encEnd),
   ("decb.begin".toList, .plain .decbBegin), ("decb.unit".toList, .byte .decbUnit),
   ("decb.end".toList, .plain .decbEnd),
   ("d64.begin".toList, .residue), ("d64.unit".toList, .byte .d64Unit),
   ("d64.end".toList, .plain .d64End),
   ("dbuf.begin".toList, .plain .dbufBegin), ("dbuf.unit".toList, .byte .dbufUnit),
   ("dbuf.end".toList, .plain .dbufEnd),
   ("encode".toList, .list encodeWords), ("decode.bytes".toList, .list decodeBytesWords),
   ("decode.base64".toList, .list decodeBase64Words),
   ("decode.buffer".toList, .list decodeBufferWords)]

/-- A space or a tab. -/
def isBlank (ch : Char) : Bool := ch = ' ' || ch = '\t'

/-- Blanks removed at both ends. -/
def trimBlanks (cs : List Char) : List Char :=
  ((cs.dropWhile isBlank).reverse.dropWhile isBlank).reverse

/-- A letter in lower case, anything else unchanged (R78: mnemonics are case-insensitive). -/
def lowerCase (ch : Char) : Char :=
  if 'A'.toNat ≤ ch.toNat ∧ ch.toNat ≤ 'Z'.toNat then Char.ofNat (ch.toNat + 32) else ch

/-- The text split at its commas. -/
def splitCommas : List Char → List (List Char)
  | [] => [[]]
  | ch :: cs =>
    if ch = ',' then [] :: splitCommas cs
    else
      match splitCommas cs with
      | [] => [[ch]]
      | piece :: pieces => (ch :: piece) :: pieces

/-- The value of a digit in `base` (10 or 16). -/
def digitValue (base : Nat) (ch : Char) : Option Nat :=
  let n := ch.toNat
  let v :=
    if '0'.toNat ≤ n ∧ n ≤ '9'.toNat then some (n - '0'.toNat)
    else if 'a'.toNat ≤ n ∧ n ≤ 'f'.toNat then some (n - 'a'.toNat + 10)
    else if 'A'.toNat ≤ n ∧ n ≤ 'F'.toNat then some (n - 'A'.toNat + 10)
    else none
  v.filter (fun d => d < base)

/-- The value of a run of digits, the first the most significant. -/
def digitsValue (base : Nat) : Nat → List Char → Option Nat
  | acc, [] => some acc
  | acc, ch :: cs => (digitValue base ch).bind fun d => digitsValue base (acc * base + d) cs

/-- A decimal number, or a hexadecimal number with the prefix `0x` (R79). -/
def number : List Char → Option Nat
  | [] => none
  | '0' :: 'x' :: [] => none
  | '0' :: 'x' :: ch :: cs => digitsValue 16 0 (ch :: cs)
  | cs => digitsValue 10 0 cs

/-- An operand in 0..`max`. The assembler never masks a value (R79). -/
def operand (max : Nat) (cs : List Char) : Except AsmError Byte :=
  match number cs with
  | none => .error .notANumber
  | some v => if v ≤ max then .ok (BitVec.ofNat 8 v) else .error .outOfRange

/-- The words of one command with its operands (R79, R80, R83 to R86). -/
def assembleForm : AsmForm → List (List Char) → Except AsmError (List Word)
  | .plain i, [] => .ok [encode i]
  | .plain _, _ :: _ => .error .operandCount
  | .byte mk, [cs] => (operand 255 cs).map fun v => [encode (mk v)]
  | .byte _, _ => .error .operandCount
  | .residue, [cs] => (operand 7 cs).map fun k => [encode (.d64Begin k)]
  | .residue, _ => .error .operandCount
  | .list expand, operands => (operands.mapM (operand 255)).map expand

/-- One line: a mnemonic, its operands, a comment from `;` on (R78). -/
def assembleLine (line : List Char) : Except AsmError (List Word) :=
  let text := trimBlanks (line.takeWhile (fun ch => ch ≠ ';'))
  let name := (text.takeWhile (fun ch => !isBlank ch)).map lowerCase
  let rest := trimBlanks (text.dropWhile (fun ch => !isBlank ch))
  let operands := if rest = [] then [] else (splitCommas rest).map trimBlanks
  if name = [] then .error .noCommand
  else
    match asmForms.lookup name with
    | none => .error .unknownMnemonic
    | some form => assembleForm form operands

/-- The lines of a program from line number `n` on; a refusal names the line (R79). -/
def assembleFrom : Nat → List (List Char) → Except (Nat × AsmError) (List Word)
  | _, [] => .ok []
  | n, line :: lines =>
    match assembleLine line with
    | .error e => .error (n, e)
    | .ok ws => (assembleFrom (n + 1) lines).map (ws ++ ·)

/-- A program of assembly lines, numbered from 1. -/
def assemble (lines : List (List Char)) : Except (Nat × AsmError) (List Word) := assembleFrom 1 lines

end Sys2Proof.Machine
end

