-- ==== Sys2Proof/Machine/Flags.lean ====
section
/-! DEFINITION. The codes of MODE and FAULT and the read ports that show them with DONE
(spec/10_state.md R22, R35, spec/60_exceptions.md R221). DONE and FAULT are the block's only flags
(R38); they are written by `init`, `commit`, `raise` and `resetCodec` of Machine/Ops.lean. -/

namespace Sys2Proof.Machine

/-- The value of MODE (R22). -/
def modeCode : Mode → BitVec 3
  | .idle => 0
  | .enc => 1
  | .decb => 2
  | .d64 => 3
  | .dbuf => 4

/-- The code of a fault cause (spec/60_exceptions.md R221). -/
def faultCode : FaultCode → BitVec 3
  | .noFault => 0
  | .illegalCommand => 1
  | .sequenceError => 2
  | .invalidInput => 3
  | .outputOverflow => 4
  | .lengthMismatch => 5

/-- Port 0, STATUS: [2:0] MODE, [3] DONE, [6:4] FAULT, [15:7] read as 0 (R35). -/
def statusPort (s : State) : BitVec 16 :=
  (0 : BitVec 9) ++ faultCode s.fault ++ BitVec.ofBool s.done ++ modeCode s.mode

/-- Port 1, COUNT: OCNT (R35). -/
def countPort (s : State) : BitVec 32 := s.ocnt

/-- Port 2, FCMD (R35). -/
def fcmdPort (s : State) : BitVec 16 := s.fcmd

/-- What the host reads at a port id, as a number; there is no port above 2 (R35). Reading changes
nothing. -/
def readPort (s : State) : Nat → Option Nat
  | 0 => some (statusPort s).toNat
  | 1 => some (countPort s).toNat
  | 2 => some (fcmdPort s).toNat
  | _ => none

end Sys2Proof.Machine
end

