-- ==== Sys2Proof/Machine/HostView.lean ====
section
/-! DEFINITION. What the host sees of OUTQ and BUFMEM (spec/20_memory.md R62,
spec/70_reset_and_hazards.md R263, R272). Reading changes nothing. The read ports are in
Machine/Flags.lean. -/

namespace Sys2Proof.Machine

/-- The last transaction is committed: DONE = 1 and FAULT = 0 (spec/70_reset_and_hazards.md R263). -/
def committed (s : State) : Bool := s.done && decide (s.fault = .noFault)

/-- What the host takes from OUTQ: the whole output once it is committed, and before that none, some or
all of the symbols so far, in order. That the part seen is a prefix, and the same one however often the
host looks at one position, is the model's choice (log entries 7, 8 and 22). -/
def hostOutq (s : State) : List Byte :=
  if committed s then s.outq else s.outq.take (Config.outqVisible s.pos)

/-- Whether index `i` of BUFMEM holds a result that the host may take: the last DBUF transaction was
committed and wrote it, and since then there was no DBUF.BEGIN, no reset and no fault. A transaction of
another mode, open or committed, takes nothing from it: no such command writes BUFMEM (spec/10_state.md
R34), and the host may read until the next DBUF.BEGIN (spec/70_reset_and_hazards.md R264, R272). That
this outweighs R270's silence on those runs is the model's choice (log entry 21). -/
def bufCommitted (s : State) (i : Nat) : Bool :=
  decide (s.fault = .noFault) && decide (i < s.bufResult)

/-- What the host reads at index `i` of BUFMEM: nothing where BUFMEM has no such index
(spec/20_memory.md R51), the stored byte where it is a result, and a free value anywhere else (U4 to
U7; log entries 5, 6 and 22). -/
def hostBuf (c : Config.Params) (s : State) (i : Nat) : Option Byte :=
  if i < (c.bufCap : Nat) then
    some (if bufCommitted s i then (s.bufmem.read i).getD (Config.bufUnspecified s.pos i)
      else Config.bufUnspecified s.pos i)
  else none

end Sys2Proof.Machine
end

