-- ==== Sys2Proof/Machine/Reference.lean ====
section
/-! DEFINITION. The source's operations as functions on whole sequences: `encode_ref`, `decode_ref` and
`decode64_ref` (spec/41_encode.md R133, spec/42_decode_bytes.md R153, spec/43_decode_base64.md R174),
over an unbounded and unmasked `buf`, and standard base64 (R175). -/

namespace Sys2Proof.Machine

/-- `(buf, len)` and the output so far. -/
structure RefState where
  buf : Nat
  len : Nat
  out : List Nat
deriving DecidableEq, Repr

/-- `while len >= threshold: len <- len - n; out <- out ++ [symbol((buf >> len) & mask(n))]`, for at
most `fuel` passes. -/
def refDrain (threshold n : Nat) (symbol : Nat → Nat) : Nat → RefState → RefState
  | 0, r => r
  | fuel + 1, r =>
    if threshold ≤ r.len then
      refDrain threshold n symbol fuel
        { r with len := r.len - n, out := r.out ++ [symbol ((r.buf >>> (r.len - n)) &&& mask n)] }
    else r

/-- One byte of `encode_ref`. -/
def encodeRefByte (r : RefState) (byte : Nat) : RefState :=
  refDrain 7 7 id (r.len + 8)
    { r with buf := (r.buf <<< 8) ||| byte, len := r.len + 8 }

/-- `encode_ref` (spec/41_encode.md R133). -/
def encodeRef (bs : List Nat) : List Nat :=
  let r := bs.foldl encodeRefByte ⟨0, 0, []⟩
  if 0 < r.len then r.out ++ [(r.buf <<< (7 - r.len)) &&& mask 7] else r.out

/-- One unit of `decode_ref`. -/
def decodeRefUnit (r : RefState) (u : Nat) : RefState :=
  let buf := (r.buf <<< 7) ||| u
  let len := r.len + 7
  if 8 ≤ len then ⟨buf, len - 8, r.out ++ [(buf >>> (len - 8)) &&& mask 8]⟩ else ⟨buf, len, r.out⟩

/-- `decode_ref` (spec/42_decode_bytes.md R153). -/
def decodeRef (us : List Nat) : List Nat := (us.foldl decodeRefUnit ⟨0, 0, []⟩).out

/-- `ALPHA[i]` as a character code (spec/40_accumulator.md R107). -/
def alpha (i : Nat) : Nat := (b64Char i).toNat

/-- One unit of `decode64_ref`, with padding count `p`. -/
def decode64RefUnit (p : Nat) (r : RefState) (u : Nat) : RefState :=
  refDrain (6 + p) 6 alpha (r.len + 7)
    { r with buf := (r.buf <<< 7) ||| u, len := r.len + 7 }

/-- `while |out| mod 4 != 0: out <- out ++ ['=']`; three passes are enough. -/
def refPad (out : List Nat) : List Nat :=
  out ++ List.replicate ((4 - out.length % 4) % 4) padChar.toNat

/-- `decode64_ref` (spec/43_decode_base64.md R174), as character codes. -/
def decode64Ref (us : List Nat) : List Nat :=
  let p := (us.length * 7) % 8
  let r := us.foldl (decode64RefUnit p) ⟨0, 0, []⟩
  let buf := r.buf >>> p
  let len := r.len - p
  refPad (if 0 < len then r.out ++ [alpha ((buf <<< (6 - len)) &&& mask 6)] else r.out)

/-- Standard base64 (spec/43_decode_base64.md R175), as character codes: three bytes make four
characters, and a last group of one or two bytes is filled up with `=`. General knowledge (G3; log
entry 13). -/
def stdBase64 : List Nat → List Nat
  | [] => []
  | [a] => [alpha (a / 4), alpha (a % 4 * 16), padChar.toNat, padChar.toNat]
  | [a, b] => [alpha (a / 4), alpha (a % 4 * 16 + b / 16), alpha (b % 16 * 4), padChar.toNat]
  | a :: b :: d :: rest =>
    [alpha (a / 4), alpha (a % 4 * 16 + b / 16), alpha (b % 16 * 4 + d / 64), alpha (d % 64)]
      ++ stdBase64 rest

end Sys2Proof.Machine
end

