-- ==== Sys2Proof/Safety.lean ====
section
/-! DEFINITION. What counts as a successful run and its result (spec/70_reset_and_hazards.md R270,
R271, spec/30_encoding.md R81), and the invariant of the machine. -/

namespace Sys2Proof.Machine

/-- How a run ended (spec/70_reset_and_hazards.md R270). -/
inductive RunClass where
  | successful
  | openRun
  | faulted
deriving DecidableEq, Repr

/-- The class of a final state (R270). -/
def classify (s : State) : RunClass :=
  if s.fault = .noFault then (if s.mode = .idle then .successful else .openRun) else .faulted

/-- The OUTQ result of a run: OUTQ in a successful final state with DONE = 1 (R270, R271). -/
def outqResult (s : State) : Option (List Byte) :=
  if classify s = .successful ∧ s.done then some (hostOutq s) else none

/-- At most `k` more symbols fit in OUTQ (spec/40_accumulator.md R108). -/
def roomFor (c : Config.Params) (s : State) (k : Nat) : Prop :=
  ∀ n, c.outqCap = some n → s.outq.length + k ≤ (n : Nat)

/-- The bounds on the registers in each mode (spec/10_state.md R26, spec/41_encode.md R136,
spec/42_decode_bytes.md R155, R156, spec/43_decode_base64.md R177). The congruences say that no input
bit is lost: the bits received are the bits put out and the bits pending. -/
def ModeBounds (s : State) : Prop :=
  match s.mode with
  | .idle => s.len.toNat = 0 ∧ s.p.toNat = 0
  | .enc => s.len.toNat ≤ 6 ∧ s.p.toNat = 0 ∧ (7 * s.ocnt.toNat + s.len.toNat) % 8 = 0
  | .decb => s.len.toNat ≤ 7 ∧ s.p.toNat = 0 ∧ s.len.toNat = (7 * s.icnt.toNat) % 8
  | .dbuf => s.len.toNat ≤ 7 ∧ s.p.toNat = 0 ∧ s.len.toNat = (7 * s.icnt.toNat) % 8
  | .d64 =>
    s.len.toNat ≤ 5 + s.p.toNat ∧
    (7 * s.icnt.toNat) % 8 = (6 * s.ocnt.toNat + s.len.toNat) % 8 ∧
    (s.p.toNat ≤ s.len.toNat ∨ (s.len.toNat = 0 ∧ s.icnt.toNat = 0 ∧ s.ocnt.toNat = 0))

/-- What the invariant says of OUTQ, OCNT and BUFMEM while no fault is recorded
(spec/10_state.md R29, R33, spec/20_memory.md R51). -/
def OutputBounds (c : Config.Params) (s : State) : Prop :=
  match s.mode with
  | .idle => True
  | .enc => s.ocnt.toNat = s.outq.length % 2 ^ 32 ∧ ∀ v ∈ s.outq, v.toNat ≤ 127
  | .decb => s.ocnt.toNat = s.outq.length % 2 ^ 32
  | .d64 => s.ocnt.toNat = s.outq.length % 2 ^ 32 ∧ ∀ v ∈ s.outq, ∃ i, i ≤ 63 ∧ v = b64Char i
  | .dbuf => s.outq = [] ∧ s.ocnt.toNat ≤ c.bufCap ∧ ∀ i, i < s.ocnt.toNat → (s.bufmem.read i).isSome

/-- The invariant of the machine: it holds after reset and every step keeps it. -/
structure Inv (c : Config.Params) (s : State) : Prop where
  /-- `ACC < 2^LEN` (spec/10_state.md R23). -/
  accBelow : s.acc.toNat < 2 ^ s.len.toNat
  /-- The bounds by mode (spec/10_state.md R26). -/
  modeBounds : ModeBounds s
  /-- The output of an open transaction. -/
  outputBounds : s.fault = .noFault → OutputBounds c s
  /-- OUTQ never exceeds OUTQ_CAP (spec/10_state.md R33). -/
  outqFits : roomFor c s 0
  /-- DONE is set only while idle without a fault (spec/10_state.md R30). -/
  doneIdle : s.done = true → s.mode = .idle ∧ s.fault = .noFault
  /-- While FAULT = 0, FCMD is 0 (spec/10_state.md R32). -/
  noFaultNoRecord : s.fault = .noFault → s.fcmd = 0
  /-- A fault withdraws the output (spec/60_exceptions.md R228). -/
  faultWithdraws : s.fault ≠ .noFault → s.outq = []
  /-- BUFMEM has its canonical form. -/
  bufmemWf : s.bufmem.wf = true
  /-- BUFMEM has no byte at an index it does not have (spec/20_memory.md R51). -/
  bufmemInside : ∀ i, (s.bufmem.read i).isSome → i < (c.bufCap : Nat)
  /-- The bytes that are a DBUF result were stored, at indices BUFMEM has (log entry 21). -/
  resultStored : s.bufResult ≤ (c.bufCap : Nat) ∧ ∀ i, i < s.bufResult → (s.bufmem.read i).isSome
  /-- An open DBUF transaction has withdrawn the last result (spec/70_reset_and_hazards.md R264). -/
  openWithdraws : s.mode = .dbuf → s.bufResult = 0

end Sys2Proof.Machine
end

