-- ==== Sys2Proof/Certificates/Slice0/Obligations.lean ====
section
/-! DEFINITION. The statements for the provers: what the rules of spec/ say of the machine.

`exec` and `step` run on the machine's own parameters, `Config.params`; `effect`, `issue` and `runWords`
are the same commands for any parameters `c` (spec/00_scope.md R6). -/

open Sys2Proof Sys2Proof.Machine

/-! ### Encoding -/

/-- One word of each command, and illegal words, decode as the tables of spec/30_encoding.md R73 and R74
say. -/
def Obligations.SpecWordsDecode : Prop :=
  decode 0x1000 = .command .encBegin ∧ decode 0x20A5 = .command (.encByte 0xA5) ∧
  decode 0x3000 = .command .encEnd ∧ decode 0x4000 = .command .decbBegin ∧
  decode 0x5040 = .command (.decbUnit 0x40) ∧ decode 0x6000 = .command .decbEnd ∧
  decode 0x7005 = .command (.d64Begin 5) ∧ decode 0x80FF = .command (.d64Unit 0xFF) ∧
  decode 0x9000 = .command .d64End ∧ decode 0xA000 = .command .dbufBegin ∧
  decode 0xB07F = .command (.dbufUnit 0x7F) ∧ decode 0xC000 = .command .dbufEnd ∧
  decode 0x0000 = .illegal .reservedOpcode ∧ decode 0xD000 = .illegal .reservedOpcode ∧
  decode 0x1100 = .illegal .nonzeroAux ∧ decode 0x1001 = .illegal .nonzeroData ∧
  decode 0x7008 = .illegal .residueTooWide

/-- Decode and encode are inverse: exactly the well-formed commands come back from their word, and a
word that decodes is the word of its command (spec/30_encoding.md R74, R80). -/
def Obligations.DecodeAndEncodeAreInverse : Prop :=
  (∀ i : Instr, decode (encode i) = .command i ↔ i.WellFormed) ∧
  (∀ (w : Word) (i : Instr), decode w = .command i → encode i = w ∧ i.WellFormed)

/-- Which words decode to which command: the table of spec/30_encoding.md R75. A unit with bit 7 set
decodes like any other. -/
def Obligations.ExactlyTheListedWordsDecode : Prop :=
  ∀ (w : Word) (i : Instr), decode w = .command i ↔
    (i = .encBegin ∧ w = 0x1000) ∨ (∃ b, i = .encByte b ∧ w.toNat = 0x2000 + b.toNat) ∨
    (i = .encEnd ∧ w = 0x3000) ∨ (i = .decbBegin ∧ w = 0x4000) ∨
    (∃ u, i = .decbUnit u ∧ w.toNat = 0x5000 + u.toNat) ∨ (i = .decbEnd ∧ w = 0x6000) ∨
    (∃ k, i = .d64Begin k ∧ k.toNat ≤ 7 ∧ w.toNat = 0x7000 + k.toNat) ∨
    (∃ u, i = .d64Unit u ∧ w.toNat = 0x8000 + u.toNat) ∨ (i = .d64End ∧ w = 0x9000) ∨
    (i = .dbufBegin ∧ w = 0xA000) ∨ (∃ u, i = .dbufUnit u ∧ w.toNat = 0xB000 + u.toNat) ∨
    (i = .dbufEnd ∧ w = 0xC000)

/-- A word is illegal in exactly the cases of spec/60_exceptions.md R222, and in any MODE it then
records IllegalCommand, code 1, with FCMD the word. -/
def Obligations.IllegalWordsRaiseIllegalCommand : Prop :=
  (∀ w : Word, (∃ why, decode w = .illegal why) ↔
    (w.extractLsb' 12 4 ∈ [0x0#4, 0xD#4, 0xE#4, 0xF#4] ∨ w.extractLsb' 8 4 ≠ 0#4 ∨
      (w.extractLsb' 12 4 ∈ [0x1#4, 0x3#4, 0x4#4, 0x6#4, 0x9#4, 0xA#4, 0xC#4] ∧
        w.extractLsb' 0 8 ≠ 0#8) ∨
      (w.extractLsb' 12 4 = 0x7#4 ∧ w.extractLsb' 3 5 ≠ 0#5))) ∧
  (∀ (w : Word) (s : State), (∃ why, decode w = .illegal why) → s.fault = .noFault →
    runWord w s = .next { s with fault := .illegalCommand, fcmd := w, outq := [], done := false }) ∧
  faultCode .illegalCommand = 1

/-! ### The step -/

/-- A step with a command word at the head of the command port runs the decoded command, in the state
whose port has moved past the word and whose position has advanced by 1 (spec/40_accumulator.md R100,
spec/10_state.md R37); an illegal word goes to IllegalCommand. -/
def Obligations.StepRunsTheDecodedCommand : Prop :=
  ∀ (s : State) (w : Word) (rest : List HostEvent), s.input = .command w :: rest →
    (∀ i, decode w = .command i → step s = exec i { s with input := rest, pos := s.pos + 1 }) ∧
    (∀ why, decode w = .illegal why →
      step s = .next (illegalCommand w { s with input := rest, pos := s.pos + 1 }))

/-- The machine's step on a command word is the common step for the machine's own parameters; it always
answers a next state. -/
def Obligations.StepIssuesTheWord : Prop :=
  ∀ (s : State) (w : Word) (rest : List HostEvent), s.input = .command w :: rest →
    step s = .next (issue Config.params w { s with input := rest, pos := s.pos + 1 })

/-- Every step answers a next state: the model neither faults nor refuses. The model's choice where no
event is pending: the state is unchanged (log entry 3). -/
def Obligations.EveryStepAnswersANextState : Prop :=
  (∀ s, ∃ t, step s = .next t) ∧ (∀ i s, ∃ t, exec i s = .next t) ∧
  (∀ s : State, s.input = [] → step s = .next s)

/-- Every command word advances the position by exactly 1, the ignored, illegal and faulting ones too,
and a reset leaves it (log entry 4). -/
def Obligations.EveryWordAdvancesThePosition : Prop :=
  ∀ s t : State, step s = .next t →
    t.input = s.input.tail ∧
    t.pos = s.pos + (match s.input with
      | .command _ :: _ => 1
      | .reset :: _ => 0
      | [] => 0)

/-- Reset is a step of its own that writes every register and leaves BUFMEM, and only it clears FAULT
(spec/70_reset_and_hazards.md R260). The model's choices: the position stays (log entry 4, on
spec/10_state.md R37), and no earlier DBUF result is one any more (`bufResult`, log entry 21). -/
def Obligations.ResetStepWritesEveryRegister : Prop :=
  (∀ (s : State) (rest : List HostEvent), s.input = .reset :: rest →
    step s = .next
      { mode := .idle
        acc := 0
        len := 0
        p := 0
        icnt := 0
        ocnt := 0
        done := false
        fault := .noFault
        fcmd := 0
        outq := []
        bufmem := s.bufmem
        input := rest
        pos := s.pos
        bufResult := 0 }) ∧
  (∀ s t : State, step s = .next t → s.fault ≠ .noFault → t.fault = .noFault →
    ∃ rest, s.input = .reset :: rest)

/-- While FAULT is not NONE every command word is ignored: nothing but the port and the position
changes, and the state is a faulted one, never a successful end (spec/60_exceptions.md R230). -/
def Obligations.FaultedBlockIgnoresEveryWord : Prop :=
  ∀ (s : State) (w : Word) (rest : List HostEvent), s.input = .command w :: rest →
    s.fault ≠ .noFault →
    step s = .next { s with input := rest, pos := s.pos + 1 } ∧ classify s = .faulted

/-! ### Reset values and read ports -/

/-- The registers after reset (spec/10_state.md R41). -/
def Obligations.ResetValues : Prop :=
  State.reset.mode = .idle ∧ State.reset.acc = 0 ∧ State.reset.len = 0 ∧ State.reset.p = 0 ∧
  State.reset.icnt = 0 ∧ State.reset.ocnt = 0 ∧ State.reset.done = false ∧
  State.reset.fault = .noFault ∧ State.reset.fcmd = 0 ∧ State.reset.outq = []

/-- The layout of STATUS, and the other two ports (spec/10_state.md R35, R22, spec/60_exceptions.md
R221). -/
def Obligations.ReadPortsShowTheRegisters : Prop :=
  (∀ s : State,
    (statusPort s).extractLsb' 0 3 = modeCode s.mode ∧ (statusPort s).getLsbD 3 = s.done ∧
    (statusPort s).extractLsb' 4 3 = faultCode s.fault ∧ (statusPort s).extractLsb' 7 9 = 0 ∧
    readPort s 0 = some (statusPort s).toNat ∧ readPort s 1 = some s.ocnt.toNat ∧
    readPort s 2 = some s.fcmd.toNat) ∧
  [Mode.idle, .enc, .decb, .d64, .dbuf].map modeCode = [0, 1, 2, 3, 4] ∧
  [FaultCode.noFault, .illegalCommand, .sequenceError, .invalidInput, .outputOverflow,
    .lengthMismatch].map faultCode = [0, 1, 2, 3, 4, 5]

/-- The host sees the whole OUTQ once a transaction is committed, and before that only symbols already
emitted, in order (spec/20_memory.md R62; the prefix form is the model's choice, log entry 7). -/
def Obligations.HostSeesCommittedOutput : Prop :=
  ∀ s : State, (s.done = true → s.fault = .noFault → hostOutq s = s.outq) ∧ hostOutq s <+: s.outq

/-! ### What each command does -/

/-- The four BEGIN commands in IDLE: INIT with the mode, and P from the table of
spec/43_decode_base64.md R171. BUFMEM is untouched; DBUF.BEGIN takes the last result from the host, in
the model's own field `bufResult` (log entry 21). -/
def Obligations.BeginCommandsStartATransaction : Prop :=
  ∀ s : State, s.fault = .noFault → s.mode = .idle →
    exec .encBegin s = .next { s with
      mode := .enc, acc := 0, len := 0, p := 0, icnt := 0, ocnt := 0, done := false, outq := [] } ∧
    exec .decbBegin s = .next { s with
      mode := .decb, acc := 0, len := 0, p := 0, icnt := 0, ocnt := 0, done := false, outq := [] } ∧
    exec .dbufBegin s = .next { s with
      mode := .dbuf, acc := 0, len := 0, p := 0, icnt := 0, ocnt := 0, done := false, outq := []
      bufResult := 0 } ∧
    ∀ k : Byte, k.toNat ≤ 7 → exec (.d64Begin k) s = .next { s with
      mode := .d64, acc := 0, len := 0, p := BitVec.ofNat 3 ((8 - k.toNat) % 8), icnt := 0, ocnt := 0,
      done := false, outq := [] }

/-- ENC.BYTE b (spec/41_encode.md R131): the window grows by the byte, and every complete 7-bit unit
leaves it from the high end, oldest first. Nothing else changes. -/
def Obligations.EncByteResult : Prop :=
  ∀ (b : Byte) (s : State), s.fault = .noFault → s.mode = .enc → s.len.toNat ≤ 6 →
    s.acc.toNat < 2 ^ s.len.toNat →
    ∃ t : State, t = { s with
      acc := BitVec.ofNat 19 ((s.acc.toNat * 256 + b.toNat) %
        2 ^ (s.len.toNat + 8 - 7 * ((s.len.toNat + 8) / 7)))
      len := BitVec.ofNat 5 (s.len.toNat + 8 - 7 * ((s.len.toNat + 8) / 7))
      outq := s.outq ++ (List.range ((s.len.toNat + 8) / 7)).map (fun j =>
        BitVec.ofNat 8 ((s.acc.toNat * 256 + b.toNat) / 2 ^ (s.len.toNat + 8 - 7 * (j + 1)) % 128))
      ocnt := s.ocnt + BitVec.ofNat 32 ((s.len.toNat + 8) / 7)
      icnt := s.icnt + 1 } ∧
    (roomFor Config.params s ((s.len.toNat + 8) / 7) → exec (.encByte b) s = .next t) ∧
    ∀ c, roomFor c s ((s.len.toNat + 8) / 7) → effect c (.encByte b) s = t

/-- ENC.END (spec/41_encode.md R132): the remaining bits go out as one unit, zero-filled at the low end,
and the transaction is committed. -/
def Obligations.EncEndResult : Prop :=
  ∀ s : State, s.fault = .noFault → s.mode = .enc → s.len.toNat ≤ 6 →
    s.acc.toNat < 2 ^ s.len.toNat →
    ∃ t : State, t = { s with
      mode := .idle, acc := 0, len := 0, p := 0, done := true
      outq := s.outq ++
        (if s.len = 0 then [] else [BitVec.ofNat 8 (s.acc.toNat * 2 ^ (7 - s.len.toNat))])
      ocnt := s.ocnt + (if s.len = 0 then 0 else 1) } ∧
    (roomFor Config.params s (if s.len = 0 then 0 else 1) → exec .encEnd s = .next t) ∧
    ∀ c, roomFor c s (if s.len = 0 then 0 else 1) → effect c .encEnd s = t

/-- DECB.UNIT u with `u <= 127` (spec/42_decode_bytes.md R151): the window grows by the unit, and one
byte leaves it from the high end when 8 bits are pending. -/
def Obligations.DecbUnitResult : Prop :=
  ∀ (u : Byte) (s : State), s.fault = .noFault → s.mode = .decb → s.len.toNat ≤ 7 →
    s.acc.toNat < 2 ^ s.len.toNat → u.toNat ≤ 127 →
    ∃ t : State, t = { s with
      acc := BitVec.ofNat 19 ((s.acc.toNat * 128 + u.toNat) %
        2 ^ (if s.len = 0 then 7 else s.len.toNat - 1))
      len := BitVec.ofNat 5 (if s.len = 0 then 7 else s.len.toNat - 1)
      outq := s.outq ++ (if s.len = 0 then []
        else [BitVec.ofNat 8 ((s.acc.toNat * 128 + u.toNat) / 2 ^ (s.len.toNat - 1))])
      ocnt := s.ocnt + (if s.len = 0 then 0 else 1)
      icnt := s.icnt + 1 } ∧
    (roomFor Config.params s (if s.len = 0 then 0 else 1) → exec (.decbUnit u) s = .next t) ∧
    ∀ c, roomFor c s (if s.len = 0 then 0 else 1) → effect c (.decbUnit u) s = t

/-- DECB.END and DBUF.END (spec/42_decode_bytes.md R152, spec/44_decode_buffer.md R192): the trailing
bits are dropped whatever their value, and the transaction is committed; DBUF.END also makes the OCNT
bytes written a result, in the model's own field `bufResult` (log entry 21). -/
def Obligations.DecodeEndsCommit : Prop :=
  ∀ s : State, s.fault = .noFault →
    (s.mode = .decb → exec .decbEnd s = .next { s with
      mode := .idle, acc := 0, len := 0, p := 0, done := true }) ∧
    (s.mode = .dbuf → exec .dbufEnd s = .next { s with
      mode := .idle, acc := 0, len := 0, p := 0, done := true, bufResult := s.ocnt.toNat })

/-- D64.UNIT u with `u <= 127` (spec/43_decode_base64.md R172): the window grows by the unit, and a
character leaves it for every 6 bits above the P bits held back. -/
def Obligations.D64UnitResult : Prop :=
  ∀ (u : Byte) (s : State), s.fault = .noFault → s.mode = .d64 → s.len.toNat ≤ 5 + s.p.toNat →
    s.acc.toNat < 2 ^ s.len.toNat → u.toNat ≤ 127 →
    ∃ t : State, t = { s with
      acc := BitVec.ofNat 19 ((s.acc.toNat * 128 + u.toNat) %
        2 ^ (s.len.toNat + 7 - 6 * ((s.len.toNat + 7 - s.p.toNat) / 6)))
      len := BitVec.ofNat 5 (s.len.toNat + 7 - 6 * ((s.len.toNat + 7 - s.p.toNat) / 6))
      outq := s.outq ++ (List.range ((s.len.toNat + 7 - s.p.toNat) / 6)).map (fun j =>
        b64Char ((s.acc.toNat * 128 + u.toNat) / 2 ^ (s.len.toNat + 7 - 6 * (j + 1)) % 64))
      ocnt := s.ocnt + BitVec.ofNat 32 ((s.len.toNat + 7 - s.p.toNat) / 6)
      icnt := s.icnt + 1 } ∧
    (roomFor Config.params s ((s.len.toNat + 7 - s.p.toNat) / 6) → exec (.d64Unit u) s = .next t) ∧
    ∀ c, roomFor c s ((s.len.toNat + 7 - s.p.toNat) / 6) → effect c (.d64Unit u) s = t

/-- D64.END with the declared length right (spec/43_decode_base64.md R173): the P newest bits are
dropped, the rest goes out as one character zero-filled at the low end, `=` fills up to a multiple of
4 characters, and the transaction is committed. -/
def Obligations.D64EndResult : Prop :=
  ∀ (s : State) (tail : List Byte), s.fault = .noFault → s.mode = .d64 →
    (7 * s.icnt.toNat) % 8 = s.p.toNat → s.p.toNat ≤ s.len.toNat → s.len.toNat ≤ 5 + s.p.toNat →
    s.acc.toNat < 2 ^ s.len.toNat →
    tail = (if s.len.toNat = s.p.toNat then []
      else [b64Char (s.acc.toNat / 2 ^ s.p.toNat * 2 ^ (6 - (s.len.toNat - s.p.toNat)))]) ++
      List.replicate
        ((4 - (s.ocnt.toNat + (if s.len.toNat = s.p.toNat then 0 else 1)) % 4) % 4) 0x3D →
    ∃ t : State, t = { s with
      mode := .idle, acc := 0, len := 0, p := 0, done := true
      outq := s.outq ++ tail
      ocnt := s.ocnt + BitVec.ofNat 32 tail.length } ∧
    (roomFor Config.params s tail.length → exec .d64End s = .next t) ∧
    ∀ c, roomFor c s tail.length → effect c .d64End s = t

/-- DBUF.UNIT u with `u <= 127` (spec/44_decode_buffer.md R191): as DECB.UNIT, but a completed byte is
stored at index OCNT of BUFMEM, and every other index reads as before. -/
def Obligations.DbufUnitResult : Prop :=
  ∀ (u : Byte) (s : State), s.fault = .noFault → s.mode = .dbuf → s.len.toNat ≤ 7 →
    s.acc.toNat < 2 ^ s.len.toNat → u.toNat ≤ 127 →
    ∃ (m : Memory) (t : State), t = { s with
        acc := BitVec.ofNat 19 ((s.acc.toNat * 128 + u.toNat) %
          2 ^ (if s.len = 0 then 7 else s.len.toNat - 1))
        len := BitVec.ofNat 5 (if s.len = 0 then 7 else s.len.toNat - 1)
        bufmem := m
        ocnt := s.ocnt + (if s.len = 0 then 0 else 1)
        icnt := s.icnt + 1 } ∧
      ((s.len ≠ 0 → s.ocnt.toNat < (Config.params.bufCap : Nat)) →
        exec (.dbufUnit u) s = .next t) ∧
      (∀ c : Config.Params, (s.len ≠ 0 → s.ocnt.toNat < (c.bufCap : Nat)) →
        effect c (.dbufUnit u) s = t) ∧
      ∀ a : Nat, m.read a =
        (if a = s.ocnt.toNat ∧ s.len ≠ 0 then
          some (BitVec.ofNat 8 ((s.acc.toNat * 128 + u.toNat) / 2 ^ (s.len.toNat - 1)))
        else s.bufmem.read a)

/-! ### Faults -/

/-- A decoded command in the wrong MODE records SequenceError, code 2, with FCMD its word, and does
nothing else; the required MODE is that of spec/30_encoding.md R73 (spec/60_exceptions.md R223). -/
def Obligations.WrongModeRaisesSequenceError : Prop :=
  (∀ (i : Instr) (s : State), i.WellFormed → s.fault = .noFault →
    s.mode ≠ (match i with
      | .encBegin => Mode.idle
      | .encByte _ => .enc
      | .encEnd => .enc
      | .decbBegin => .idle
      | .decbUnit _ => .decb
      | .decbEnd => .decb
      | .d64Begin _ => .idle
      | .d64Unit _ => .d64
      | .d64End => .d64
      | .dbufBegin => .idle
      | .dbufUnit _ => .dbuf
      | .dbufEnd => .dbuf) →
    exec i s = .next { s with
      fault := .sequenceError, fcmd := encode i, outq := [], done := false }) ∧
  faultCode .sequenceError = 2

/-- A unit with bit 7 set records InvalidInput, code 3, whose FCMD holds the unit in its low byte, and
does nothing else; no other command raises it (spec/60_exceptions.md R224). -/
def Obligations.UnitWithBit7RaisesInvalidInput : Prop :=
  (∀ (u : Byte) (s : State), 127 < u.toNat → s.fault = .noFault →
    (s.mode = .decb → exec (.decbUnit u) s = .next { s with
      fault := .invalidInput, fcmd := 0x5000#16 + u.setWidth 16, outq := [], done := false }) ∧
    (s.mode = .d64 → exec (.d64Unit u) s = .next { s with
      fault := .invalidInput, fcmd := 0x8000#16 + u.setWidth 16, outq := [], done := false }) ∧
    (s.mode = .dbuf → exec (.dbufUnit u) s = .next { s with
      fault := .invalidInput, fcmd := 0xB000#16 + u.setWidth 16, outq := [], done := false })) ∧
  (∀ (c : Config.Params) (i : Instr) (s : State), s.fault = .noFault →
    (effect c i s).fault = .invalidInput →
    ∃ u : Byte, 127 < u.toNat ∧ (i = .decbUnit u ∨ i = .d64Unit u ∨ i = .dbufUnit u)) ∧
  faultCode .invalidInput = 3

/-- D64.END with a number of units that is not the declared one modulo 8 records LengthMismatch, code 5,
with FCMD 0x9000, whatever the room in OUTQ (spec/60_exceptions.md R226). -/
def Obligations.WrongLengthRaisesLengthMismatch : Prop :=
  (∀ s : State, s.fault = .noFault → s.mode = .d64 → (7 * s.icnt.toNat) % 8 ≠ s.p.toNat →
    exec .d64End s = .next { s with
      fault := .lengthMismatch, fcmd := 0x9000, outq := [], done := false }) ∧
  faultCode .lengthMismatch = 5

/-- Without room for all the symbols or the byte it would put out, a command records OutputOverflow,
code 4, and does nothing else; an unbounded OUTQ never overflows (spec/60_exceptions.md R225). -/
def Obligations.FullOutputRaisesOutputOverflow : Prop :=
  (∀ (c : Config.Params) (s : State), s.fault = .noFault → s.acc.toNat < 2 ^ s.len.toNat →
    roomFor c s 0 →
    (∀ b : Byte, s.mode = .enc → s.len.toNat ≤ 6 → ¬ roomFor c s ((s.len.toNat + 8) / 7) →
      effect c (.encByte b) s = { s with
        fault := .outputOverflow, fcmd := encode (.encByte b), outq := [], done := false }) ∧
    (s.mode = .enc → 0 < s.len.toNat → s.len.toNat ≤ 6 → ¬ roomFor c s 1 →
      effect c .encEnd s = { s with
        fault := .outputOverflow, fcmd := 0x3000, outq := [], done := false }) ∧
    (∀ u : Byte, u.toNat ≤ 127 → s.mode = .decb → 0 < s.len.toNat → s.len.toNat ≤ 7 →
      ¬ roomFor c s 1 →
      effect c (.decbUnit u) s = { s with
        fault := .outputOverflow, fcmd := encode (.decbUnit u), outq := [], done := false }) ∧
    (∀ u : Byte, u.toNat ≤ 127 → s.mode = .d64 → s.len.toNat ≤ 5 + s.p.toNat →
      ¬ roomFor c s ((s.len.toNat + 7 - s.p.toNat) / 6) →
      effect c (.d64Unit u) s = { s with
        fault := .outputOverflow, fcmd := encode (.d64Unit u), outq := [], done := false }) ∧
    (s.mode = .d64 → (7 * s.icnt.toNat) % 8 = s.p.toNat → s.p.toNat < s.len.toNat →
      s.len.toNat ≤ 5 + s.p.toNat → ¬ roomFor c s (1 + (4 - (s.ocnt.toNat + 1) % 4) % 4) →
      effect c .d64End s = { s with
        fault := .outputOverflow, fcmd := 0x9000, outq := [], done := false }) ∧
    (∀ u : Byte, u.toNat ≤ 127 → s.mode = .dbuf → 0 < s.len.toNat → s.len.toNat ≤ 7 →
      (c.bufCap : Nat) ≤ s.ocnt.toNat →
      effect c (.dbufUnit u) s = { s with
        fault := .outputOverflow, fcmd := encode (.dbufUnit u), outq := [], done := false })) ∧
  (∀ (c : Config.Params) (i : Instr) (s : State), c.outqCap = none → s.fault = .noFault →
    (effect c i s).fault = .outputOverflow → ∃ u, i = .dbufUnit u) ∧
  faultCode .outputOverflow = 4

/-- A command raises at most one fault, the first check that fails in the order of
spec/60_exceptions.md R227. -/
def Obligations.FaultsFollowThePriority : Prop :=
  ∀ (c : Config.Params) (w : Word) (s : State),
    (s.fault ≠ .noFault → issue c w s = s) ∧
    (s.fault = .noFault →
      (∀ why, decode w = .illegal why → (issue c w s).fault = .illegalCommand) ∧
      (∀ i, decode w = .command i →
        (s.mode ≠ requiredMode i → (issue c w s).fault = .sequenceError) ∧
        (s.mode = requiredMode i →
          ((∃ u : Byte, 127 < u.toNat ∧ (i = .decbUnit u ∨ i = .d64Unit u ∨ i = .dbufUnit u)) →
            (issue c w s).fault = .invalidInput) ∧
          (i = .d64End → (7 * s.icnt.toNat) % 8 ≠ s.p.toNat →
            (issue c w s).fault = .lengthMismatch) ∧
          ((¬ ∃ u : Byte, 127 < u.toNat ∧ (i = .decbUnit u ∨ i = .d64Unit u ∨ i = .dbufUnit u)) →
            (i = .d64End → (7 * s.icnt.toNat) % 8 = s.p.toNat) →
            (issue c w s).fault = .noFault ∨ (issue c w s).fault = .outputOverflow))))

/-- A word that raises a fault has no effect but the fault record: FAULT, FCMD, OUTQ and DONE. MODE,
ACC, LEN, P, ICNT and OCNT keep their values, the stored bytes stay, and what the host then reads of
BUFMEM is unspecified (spec/60_exceptions.md R228, R229). -/
def Obligations.FaultLeavesOnlyItsRecord : Prop :=
  ∀ (c : Config.Params) (w : Word) (s : State), s.fault = .noFault →
    (issue c w s).fault ≠ .noFault →
    issue c w s =
      { s with fault := (issue c w s).fault, fcmd := w, outq := [], done := false } ∧
    ∀ i, i < (c.bufCap : Nat) →
      hostBuf c (issue c w s) i = some (Config.bufUnspecified s.pos i)

/-! ### Frames -/

/-- Only DBUF.UNIT writes BUFMEM: after any other command every index reads as before
(spec/10_state.md R34). -/
def Obligations.OnlyDbufUnitWritesBufmem : Prop :=
  ∀ (i : Instr) (s t : State), exec i s = .next t → (∀ u, i ≠ .dbufUnit u) →
    ∀ a, t.bufmem.read a = s.bufmem.read a

/-- DBUF.UNIT stores at index OCNT only: every other index reads as before (spec/40_accumulator.md
R109). -/
def Obligations.DbufUnitStoresOnlyAtOcnt : Prop :=
  ∀ (u : Byte) (s t : State), exec (.dbufUnit u) s = .next t →
    ∀ a, a ≠ s.ocnt.toNat → t.bufmem.read a = s.bufmem.read a

/-- The frame of the four element commands, in every state: MODE and P are kept; DONE, FCMD and OUTQ
change only by an output symbol or a fault record; OCNT and OUTQ grow together, but for DBUF.UNIT, which
keeps OUTQ (spec/10_state.md R22, R27, R30, R32, R33). -/
def Obligations.ElementCommandsKeepTheRest : Prop :=
  ∀ (i : Instr) (s t : State), exec i s = .next t →
    ((∃ v, i = .encByte v) ∨ (∃ v, i = .decbUnit v) ∨ (∃ v, i = .d64Unit v) ∨
      (∃ v, i = .dbufUnit v)) →
    t.mode = s.mode ∧ t.p = s.p ∧ t.input = s.input ∧ t.pos = s.pos ∧ t.bufResult = s.bufResult ∧
    (t.fault = s.fault → t.done = s.done ∧ t.fcmd = s.fcmd ∧
      ∃ vs, t.outq = s.outq ++ vs ∧
        ((∃ v, i = .dbufUnit v) → vs = []) ∧
        ((∀ v, i ≠ .dbufUnit v) → t.ocnt = s.ocnt + BitVec.ofNat 32 vs.length))

/-- The frame of the END commands, in every state: ICNT is kept, and MODE, P, ACC and LEN change only
with a commit; OUTQ only grows with one (spec/40_accumulator.md R112). Only a commit by DBUF.END changes the model's
own `bufResult` (log entry 21). -/
def Obligations.EndCommandsKeepTheRest : Prop :=
  ∀ (i : Instr) (s t : State), exec i s = .next t → i ∈ [.encEnd, .decbEnd, .d64End, .dbufEnd] →
    t.icnt = s.icnt ∧ t.input = s.input ∧ t.pos = s.pos ∧
    ((t.mode = .idle ∧ t.done = true ∧ t.acc = 0 ∧ t.len = 0 ∧ t.p = 0 ∧ t.fault = s.fault ∧
        t.fcmd = s.fcmd ∧ s.outq <+: t.outq ∧
        t.bufResult = (if i = .dbufEnd then s.ocnt.toNat else s.bufResult) ∧
        (i ∈ [.decbEnd, .dbufEnd] → t.outq = s.outq ∧ t.ocnt = s.ocnt)) ∨
      (t.mode = s.mode ∧ t.acc = s.acc ∧ t.len = s.len ∧ t.p = s.p ∧ t.ocnt = s.ocnt ∧
        t.bufResult = s.bufResult))

/-! ### Invariants -/

/-- The invariant holds after reset, for any parameters. -/
def Obligations.ResetHasTheInvariant : Prop := ∀ c : Config.Params, Inv c State.reset

/-- Every step keeps the invariant. -/
def Obligations.StepKeepsTheInvariant : Prop :=
  ∀ s t : State, Inv Config.params s → step s = .next t → Inv Config.params t

/-- Every run, resets among its words, keeps the invariant, for any parameters. -/
def Obligations.RunsKeepTheInvariant : Prop :=
  ∀ (c : Config.Params) (events : List HostEvent) (s : State), Inv c s → Inv c (runEvents c events s)

/-- LEN stays in its bound in each mode, between commands and just after a SHIFT_IN, and no SHIFT_IN
loses a bit of the window (spec/10_state.md R26, spec/40_accumulator.md R114). -/
def Obligations.WindowBoundsByMode : Prop :=
  ∀ (c : Config.Params) (s : State), Inv c s →
    (s.mode = .idle → s.len.toNat = 0) ∧
    (s.mode = .enc → s.len.toNat ≤ 6 ∧ ∀ b : Byte,
      (shiftIn b.toNat 8 s).len.toNat ≤ 14 ∧
      (shiftIn b.toNat 8 s).acc.toNat = s.acc.toNat * 256 + b.toNat) ∧
    (s.mode = .decb ∨ s.mode = .dbuf → s.len.toNat ≤ 7 ∧ ∀ u : Byte, u.toNat ≤ 127 →
      (shiftIn u.toNat 7 s).len.toNat ≤ 14 ∧
      (shiftIn u.toNat 7 s).acc.toNat = s.acc.toNat * 128 + u.toNat) ∧
    (s.mode = .d64 → s.len.toNat ≤ 5 + s.p.toNat ∧ ∀ u : Byte, u.toNat ≤ 127 →
      (shiftIn u.toNat 7 s).len.toNat ≤ 12 + s.p.toNat ∧
      (shiftIn u.toNat 7 s).len.toNat ≤ 19 ∧
      (shiftIn u.toNat 7 s).acc.toNat = s.acc.toNat * 128 + u.toNat)

/-- Once D64.END's length check passes, DROP(P) does not underflow, fewer than 6 bits remain, and the
count after the last character is never 1 modulo 4, so there are never three `=`
(spec/43_decode_base64.md R176, R177). -/
def Obligations.D64EndNeverPadsThree : Prop :=
  ∀ (c : Config.Params) (s : State), Inv c s → s.mode = .d64 →
    (7 * s.icnt.toNat) % 8 = s.p.toNat →
    s.p.toNat ≤ s.len.toNat ∧ s.len.toNat - s.p.toNat < 6 ∧
    (s.ocnt.toNat + (if s.len.toNat = s.p.toNat then 0 else 1)) % 4 ≠ 1

/-! ### Whole transactions -/

/-- LEN after `n` elements without a fault: `n mod 7` in ENC mode, `7n mod 8` in DECB and DBUF mode; and
the symbols put out by then (spec/41_encode.md R135, R136, spec/42_decode_bytes.md R155). -/
def Obligations.WindowLengthFollowsTheCount : Prop :=
  ∀ (c : Config.Params) (s : State) (vs : List Byte), s.fault = .noFault → s.mode = .idle →
    (∀ t, t = runWords c (encode .encBegin :: vs.map (fun b => encode (.encByte b))) s →
      t.fault = .noFault → t.len.toNat = vs.length % 7 ∧ t.outq.length = 8 * vs.length / 7) ∧
    (∀ t, t = runWords c (encode .decbBegin :: vs.map (fun u => encode (.decbUnit u))) s →
      t.fault = .noFault → t.len.toNat = 7 * vs.length % 8 ∧ t.outq.length = 7 * vs.length / 8) ∧
    (∀ t, t = runWords c (encode .dbufBegin :: vs.map (fun u => encode (.dbufUnit u))) s →
      t.fault = .noFault → t.len.toNat = 7 * vs.length % 8 ∧ t.ocnt.toNat = 7 * vs.length / 8)

/-- The pseudo-instruction `encode` computes `encode_ref`, or overflows (spec/41_encode.md R133). -/
def Obligations.EncodeTransactionComputesEncodeRef : Prop :=
  ∀ (c : Config.Params) (s : State) (bs : List Byte), s.mode = .idle → s.fault = .noFault →
    ((∀ n, c.outqCap = some n → (8 * bs.length + 6) / 7 ≤ (n : Nat)) →
      (runWords c (encodeWords bs) s).fault = .noFault ∧
      (runWords c (encodeWords bs) s).done = true ∧
      (runWords c (encodeWords bs) s).mode = .idle ∧
      (runWords c (encodeWords bs) s).outq.map BitVec.toNat = encodeRef (bs.map BitVec.toNat) ∧
      (runWords c (encodeWords bs) s).ocnt.toNat = (8 * bs.length + 6) / 7 % 2 ^ 32) ∧
    ((∃ n, c.outqCap = some n ∧ (n : Nat) < (8 * bs.length + 6) / 7) →
      (runWords c (encodeWords bs) s).fault = .outputOverflow ∧
      (runWords c (encodeWords bs) s).outq = [])

/-- The pseudo-instruction `decode.bytes` on units up to 127 computes `decode_ref`, or overflows
(spec/42_decode_bytes.md R153, its last two outcomes). -/
def Obligations.DecodeBytesTransactionComputesDecodeRef : Prop :=
  ∀ (c : Config.Params) (s : State) (us : List Byte), s.mode = .idle → s.fault = .noFault →
    (∀ u ∈ us, u.toNat ≤ 127) →
    ((∀ n, c.outqCap = some n → 7 * us.length / 8 ≤ (n : Nat)) →
      (runWords c (decodeBytesWords us) s).fault = .noFault ∧
      (runWords c (decodeBytesWords us) s).done = true ∧
      (runWords c (decodeBytesWords us) s).mode = .idle ∧
      (runWords c (decodeBytesWords us) s).outq.map BitVec.toNat = decodeRef (us.map BitVec.toNat) ∧
      (runWords c (decodeBytesWords us) s).ocnt.toNat = 7 * us.length / 8 % 2 ^ 32) ∧
    ((∃ n, c.outqCap = some n ∧ (n : Nat) < 7 * us.length / 8) →
      (runWords c (decodeBytesWords us) s).fault = .outputOverflow)

/-- The pseudo-instruction `decode.base64` on units up to 127 computes `decode64_ref`, or overflows
(spec/43_decode_base64.md R174, its last two outcomes). The character codes are general knowledge,
PRESUMED (log entry 13). -/
def Obligations.DecodeBase64TransactionComputesDecode64Ref : Prop :=
  ∀ (c : Config.Params) (s : State) (us : List Byte), s.mode = .idle → s.fault = .noFault →
    (∀ u ∈ us, u.toNat ≤ 127) →
    ((∀ n, c.outqCap = some n → 4 * ((7 * us.length / 8 + 2) / 3) ≤ (n : Nat)) →
      (runWords c (decodeBase64Words us) s).fault = .noFault ∧
      (runWords c (decodeBase64Words us) s).done = true ∧
      (runWords c (decodeBase64Words us) s).outq.map BitVec.toNat =
        decode64Ref (us.map BitVec.toNat)) ∧
    ((∃ n, c.outqCap = some n ∧ (n : Nat) < 4 * ((7 * us.length / 8 + 2) / 3)) →
      (runWords c (decodeBase64Words us) s).fault = .outputOverflow)

/-- The pseudo-instruction `decode.buffer` on units up to 127 leaves `decode_ref` in BUFMEM, where the
host reads it, or overflows (spec/44_decode_buffer.md R193, its last two outcomes). -/
def Obligations.DecodeBufferTransactionFillsTheBuffer : Prop :=
  ∀ (c : Config.Params) (s : State) (us : List Byte), s.mode = .idle → s.fault = .noFault →
    (∀ u ∈ us, u.toNat ≤ 127) →
    (7 * us.length / 8 ≤ (c.bufCap : Nat) →
      (runWords c (decodeBufferWords us) s).fault = .noFault ∧
      (runWords c (decodeBufferWords us) s).done = true ∧
      (runWords c (decodeBufferWords us) s).ocnt.toNat = 7 * us.length / 8 ∧
      ∀ j, j < 7 * us.length / 8 →
        (hostBuf c (runWords c (decodeBufferWords us) s) j).map BitVec.toNat =
          (decodeRef (us.map BitVec.toNat))[j]?) ∧
    ((c.bufCap : Nat) < 7 * us.length / 8 →
      (runWords c (decodeBufferWords us) s).fault = .outputOverflow)

/-- A committed DBUF result is what the host reads, as stored, after any words of other modes without a
fault: transactions of another mode neither write it nor take it from the host until the next DBUF.BEGIN
(spec/10_state.md R34, spec/70_reset_and_hazards.md R264, R272). That this outweighs R270's silence on
those runs is the model's choice (log entry 21). -/
def Obligations.BufferResultStaysUntilDbufBegin : Prop :=
  ∀ (c : Config.Params) (s : State) (words : List Word) (i : Nat), Inv c s → s.mode ≠ .dbuf →
    i < s.bufResult → encode .dbufBegin ∉ words → (runWords c words s).fault = .noFault →
    (s.bufmem.read i).isSome ∧ hostBuf c (runWords c words s) i = s.bufmem.read i

/-- The first outcome of spec/42_decode_bytes.md R153 read word for word: whatever OUTQ_CAP is, a unit
above 127 anywhere makes the run end with InvalidInput. An earlier unit may overflow first
(spec/60_exceptions.md R229, R230), so this is expected to fail (log entry 19). -/
def Obligations.AnyUnitWithBit7EndsInInvalidInput : Prop :=
  ∀ (c : Config.Params) (s : State) (us : List Byte), s.mode = .idle → s.fault = .noFault →
    (∃ u ∈ us, 127 < u.toNat) →
    (runWords c (decodeBytesWords us) s).fault = .invalidInput

/-- The same outcome where the units before the first one above 127 fit: the run ends with InvalidInput,
FCMD that unit's word, OUTQ empty and DONE = 0 (spec/42_decode_bytes.md R153, log entry 19). -/
def Obligations.FirstUnitWithBit7IsRecorded : Prop :=
  ∀ (c : Config.Params) (s : State) (us vs : List Byte) (u : Byte), s.mode = .idle →
    s.fault = .noFault → (∀ v ∈ us, v.toNat ≤ 127) → 127 < u.toNat →
    (∀ n, c.outqCap = some n → 7 * us.length / 8 ≤ (n : Nat)) →
    (runWords c (decodeBytesWords (us ++ u :: vs)) s).fault = .invalidInput ∧
    (runWords c (decodeBytesWords (us ++ u :: vs)) s).fcmd = 0x5000#16 + u.setWidth 16 ∧
    (runWords c (decodeBytesWords (us ++ u :: vs)) s).outq = [] ∧
    (runWords c (decodeBytesWords (us ++ u :: vs)) s).done = false

/-- `decode_ref(encode_ref(b)) = b` for every byte sequence (spec/42_decode_bytes.md R157). -/
def Obligations.DecodeRefInvertsEncodeRef : Prop :=
  ∀ bs : List Nat, (∀ b ∈ bs, b ≤ 255) → decodeRef (encodeRef bs) = bs

/-- `decode64_ref(us)` is the standard base64 text of `decode_ref(us)` (spec/43_decode_base64.md
R175). What standard base64 and its character codes are is general knowledge, PRESUMED (log entry
13). -/
def Obligations.Decode64RefIsStandardBase64 : Prop :=
  (∀ us : List Nat, (∀ u ∈ us, u ≤ 127) → decode64Ref us = stdBase64 (decodeRef us)) ∧
  (∀ bs : List Nat, (∀ b ∈ bs, b ≤ 255) → decode64Ref (encodeRef bs) = stdBase64 bs)

/-- The bit order of encode (spec/20_memory.md R52): stream bit `s` is bit `7 - s mod 8` of byte
`s / 8`, and it lands in unit `s / 7` at bit `6 - s mod 7`; the last unit is zero-filled. -/
def Obligations.EncodeIsMsbFirst : Prop :=
  ∀ bs : List Nat, (∀ b ∈ bs, b ≤ 255) →
    (encodeRef bs).length = (8 * bs.length + 6) / 7 ∧
    ∀ s, s < 7 * (encodeRef bs).length →
      ((encodeRef bs).getD (s / 7) 0).testBit (6 - s % 7) =
        (decide (s < 8 * bs.length) && (bs.getD (s / 8) 0).testBit (7 - s % 8))

/-- The bit order of decode-to-bytes (spec/20_memory.md R53): stream bit `s` is bit `6 - s mod 7` of
unit `s / 7`, and it lands in byte `s / 8` at bit `7 - s mod 8`; the bits past the last whole byte are
discarded. -/
def Obligations.DecodeIsMsbFirst : Prop :=
  ∀ us : List Nat, (∀ u ∈ us, u ≤ 127) →
    (decodeRef us).length = 7 * us.length / 8 ∧
    ∀ s, s < 8 * (decodeRef us).length →
      ((decodeRef us).getD (s / 8) 0).testBit (7 - s % 8) =
        (us.getD (s / 7) 0).testBit (6 - s % 7)

/-- The length laws (spec/41_encode.md R134, spec/42_decode_bytes.md R154, spec/43_decode_base64.md
R176). -/
def Obligations.LengthLaws : Prop :=
  (∀ bs : List Nat, (encodeRef bs).length = (8 * bs.length + 6) / 7) ∧
  (∀ us : List Nat, (decodeRef us).length = 7 * us.length / 8) ∧
  (∀ us : List Nat, (decode64Ref us).length = 4 * ((7 * us.length / 8 + 2) / 3))

/-- Encoding and then decoding on the machine gives the bytes back, with room for both
(spec/42_decode_bytes.md R157). -/
def Obligations.MachineRoundTrip : Prop :=
  ∀ (c : Config.Params) (s : State) (bs : List Byte), s.mode = .idle → s.fault = .noFault →
    (∀ n, c.outqCap = some n → (8 * bs.length + 6) / 7 ≤ (n : Nat)) →
    ∀ t, t = runWords c (encodeWords bs) s →
      (runWords c (decodeBytesWords t.outq) t).outq = bs ∧
      (runWords c (decodeBytesWords t.outq) t).done = true

/-- The committed buffer holds the bytes that `decode.bytes` commits to OUTQ on the same units, and
COUNT is their number (spec/44_decode_buffer.md R194). -/
def Obligations.BufferAndStreamAgree : Prop :=
  ∀ (c : Config.Params) (s : State) (us : List Byte), s.mode = .idle → s.fault = .noFault →
    (∀ u ∈ us, u.toNat ≤ 127) → 7 * us.length / 8 ≤ (c.bufCap : Nat) →
    (∀ n, c.outqCap = some n → 7 * us.length / 8 ≤ (n : Nat)) →
    (runWords c (decodeBufferWords us) s).ocnt.toNat = 7 * us.length / 8 ∧
    (runWords c (decodeBytesWords us) s).outq.length = 7 * us.length / 8 ∧
    ∀ j, j < 7 * us.length / 8 →
      hostBuf c (runWords c (decodeBufferWords us) s) j =
        (runWords c (decodeBytesWords us) s).outq[j]?

/-! ### The assembler -/

/-- The assembler never produces an illegal word (spec/30_encoding.md R80). -/
def Obligations.AssemblerProducesNoIllegalWord : Prop :=
  ∀ (lines : List (List Char)) (words : List Word), assemble lines = .ok words →
    ∀ w ∈ words, ∃ i, decode w = .command i

/-- The words of the four pseudo-instructions (spec/30_encoding.md R83 to R86). -/
def Obligations.PseudoInstructionWords : Prop :=
  ∀ vs : List Byte,
    encodeWords vs = [0x1000#16] ++ vs.map (fun v => 0x2000#16 ||| v.setWidth 16) ++ [0x3000#16] ∧
    decodeBytesWords vs = [0x4000#16] ++ vs.map (fun v => 0x5000#16 ||| v.setWidth 16) ++ [0x6000#16] ∧
    decodeBase64Words vs = [0x7000#16 ||| BitVec.ofNat 16 (vs.length % 8)] ++
      vs.map (fun v => 0x8000#16 ||| v.setWidth 16) ++ [0x9000#16] ∧
    decodeBufferWords vs = [0xA000#16] ++ vs.map (fun v => 0xB000#16 ||| v.setWidth 16) ++ [0xC000#16]
end

