-- ==== Sys2Proof/Laws/Memory.lean ====
section
/-! SUPPORT. The laws of BUFMEM: a write is read back, leaves every other index alone, and keeps the
canonical form. -/

namespace Sys2Proof.Machine

@[simp] theorem Memory.read_nil (i : Nat) : Memory.read [] i = none := rfl

theorem Memory.read_write_same (m : Memory) (i : Nat) (v : Byte) : (m.write i v).read i = some v := by
  induction m with
  | nil => simp [Memory.write, Memory.read]
  | cons cell rest ih =>
    obtain ⟨a, b⟩ := cell
    simp only [Memory.write]
    split
    · simp [Memory.read]
    · split
      · simp [Memory.read]
      · have : a ≠ i := by omega
        simp [Memory.read, this, ih]

theorem Memory.read_write_other (m : Memory) {i j : Nat} (v : Byte) (h : j ≠ i) :
    (m.write i v).read j = m.read j := by
  induction m with
  | nil => simp [Memory.write, Memory.read, h.symm]
  | cons cell rest ih =>
    obtain ⟨a, b⟩ := cell
    simp only [Memory.write]
    split
    · simp [Memory.read, h.symm]
    · split
      · next h' => subst h'; simp [Memory.read, h.symm]
      · simp [Memory.read, ih]

theorem Memory.wfAbove_write {m : Memory} {k i : Nat} (v : Byte) (hk : k < i)
    (h : Memory.wfAbove k m = true) : Memory.wfAbove k (m.write i v) = true := by
  induction m generalizing k with
  | nil => simp [Memory.write, Memory.wfAbove, hk]
  | cons cell rest ih =>
    obtain ⟨a, b⟩ := cell
    simp only [Memory.wfAbove, Bool.and_eq_true, decide_eq_true_eq] at h
    simp only [Memory.write]
    split
    · next h1 => simp [Memory.wfAbove, hk, h1, h.2]
    · split
      · next h2 => subst h2; simp [Memory.wfAbove, hk, h.2]
      · have : a < i := by omega
        simp [Memory.wfAbove, h.1, ih this h.2]

theorem Memory.wf_write {m : Memory} (i : Nat) (v : Byte) (h : m.wf = true) :
    (m.write i v).wf = true := by
  cases m with
  | nil => simp [Memory.write, Memory.wf, Memory.wfAbove]
  | cons cell rest =>
    obtain ⟨a, b⟩ := cell
    simp only [Memory.wf] at h
    simp only [Memory.write]
    split
    · next h1 => simp [Memory.wf, Memory.wfAbove, h1, h]
    · split
      · next h2 => subst h2; simpa [Memory.wf] using h
      · have : a < i := by omega
        simpa [Memory.wf] using Memory.wfAbove_write v this h

/-- Reset's BUFMEM is in canonical form. -/
theorem Memory.wf_reset : State.reset.bufmem.wf = true := rfl

end Sys2Proof.Machine
end

