-- ==== Sys2Proof/Laws/State.lean ====
section
/-! SUPPORT. One lemma per field per update of State, each true by rfl, so that no proof unfolds a
record update. -/

namespace Sys2Proof.Machine

/-! ### `shiftIn` -/

@[simp] theorem shiftIn_mode (v nb : Nat) (s : State) : (shiftIn v nb s).mode = s.mode := rfl
@[simp] theorem shiftIn_acc (v nb : Nat) (s : State) :
    (shiftIn v nb s).acc = BitVec.ofNat 19 ((s.acc.toNat <<< nb) ||| v) := rfl
@[simp] theorem shiftIn_len (v nb : Nat) (s : State) :
    (shiftIn v nb s).len = BitVec.ofNat 5 (s.len.toNat + nb) := rfl
@[simp] theorem shiftIn_p (v nb : Nat) (s : State) : (shiftIn v nb s).p = s.p := rfl
@[simp] theorem shiftIn_icnt (v nb : Nat) (s : State) : (shiftIn v nb s).icnt = s.icnt := rfl
@[simp] theorem shiftIn_ocnt (v nb : Nat) (s : State) : (shiftIn v nb s).ocnt = s.ocnt := rfl
@[simp] theorem shiftIn_done (v nb : Nat) (s : State) : (shiftIn v nb s).done = s.done := rfl
@[simp] theorem shiftIn_fault (v nb : Nat) (s : State) : (shiftIn v nb s).fault = s.fault := rfl
@[simp] theorem shiftIn_fcmd (v nb : Nat) (s : State) : (shiftIn v nb s).fcmd = s.fcmd := rfl
@[simp] theorem shiftIn_outq (v nb : Nat) (s : State) : (shiftIn v nb s).outq = s.outq := rfl
@[simp] theorem shiftIn_bufmem (v nb : Nat) (s : State) : (shiftIn v nb s).bufmem = s.bufmem := rfl
@[simp] theorem shiftIn_input (v nb : Nat) (s : State) : (shiftIn v nb s).input = s.input := rfl
@[simp] theorem shiftIn_pos (v nb : Nat) (s : State) : (shiftIn v nb s).pos = s.pos := rfl
@[simp] theorem shiftIn_bufResult (v nb : Nat) (s : State) :
    (shiftIn v nb s).bufResult = s.bufResult := rfl

/-! ### `take` -/

@[simp] theorem take_mode (n : Nat) (s : State) : (take n s).2.mode = s.mode := rfl
@[simp] theorem take_acc (n : Nat) (s : State) :
    (take n s).2.acc = BitVec.ofNat 19 (s.acc.toNat &&& mask (s.len.toNat - n)) := rfl
@[simp] theorem take_len (n : Nat) (s : State) :
    (take n s).2.len = BitVec.ofNat 5 (s.len.toNat - n) := rfl
@[simp] theorem take_p (n : Nat) (s : State) : (take n s).2.p = s.p := rfl
@[simp] theorem take_icnt (n : Nat) (s : State) : (take n s).2.icnt = s.icnt := rfl
@[simp] theorem take_ocnt (n : Nat) (s : State) : (take n s).2.ocnt = s.ocnt := rfl
@[simp] theorem take_done (n : Nat) (s : State) : (take n s).2.done = s.done := rfl
@[simp] theorem take_fault (n : Nat) (s : State) : (take n s).2.fault = s.fault := rfl
@[simp] theorem take_fcmd (n : Nat) (s : State) : (take n s).2.fcmd = s.fcmd := rfl
@[simp] theorem take_outq (n : Nat) (s : State) : (take n s).2.outq = s.outq := rfl
@[simp] theorem take_bufmem (n : Nat) (s : State) : (take n s).2.bufmem = s.bufmem := rfl
@[simp] theorem take_input (n : Nat) (s : State) : (take n s).2.input = s.input := rfl
@[simp] theorem take_pos (n : Nat) (s : State) : (take n s).2.pos = s.pos := rfl
@[simp] theorem take_bufResult (n : Nat) (s : State) : (take n s).2.bufResult = s.bufResult := rfl

/-! ### `pad` -/

@[simp] theorem pad_mode (n : Nat) (s : State) : (pad n s).2.mode = s.mode := rfl
@[simp] theorem pad_acc (n : Nat) (s : State) : (pad n s).2.acc = 0 := rfl
@[simp] theorem pad_len (n : Nat) (s : State) : (pad n s).2.len = 0 := rfl
@[simp] theorem pad_p (n : Nat) (s : State) : (pad n s).2.p = s.p := rfl
@[simp] theorem pad_icnt (n : Nat) (s : State) : (pad n s).2.icnt = s.icnt := rfl
@[simp] theorem pad_ocnt (n : Nat) (s : State) : (pad n s).2.ocnt = s.ocnt := rfl
@[simp] theorem pad_done (n : Nat) (s : State) : (pad n s).2.done = s.done := rfl
@[simp] theorem pad_fault (n : Nat) (s : State) : (pad n s).2.fault = s.fault := rfl
@[simp] theorem pad_fcmd (n : Nat) (s : State) : (pad n s).2.fcmd = s.fcmd := rfl
@[simp] theorem pad_outq (n : Nat) (s : State) : (pad n s).2.outq = s.outq := rfl
@[simp] theorem pad_bufmem (n : Nat) (s : State) : (pad n s).2.bufmem = s.bufmem := rfl
@[simp] theorem pad_input (n : Nat) (s : State) : (pad n s).2.input = s.input := rfl
@[simp] theorem pad_pos (n : Nat) (s : State) : (pad n s).2.pos = s.pos := rfl
@[simp] theorem pad_bufResult (n : Nat) (s : State) : (pad n s).2.bufResult = s.bufResult := rfl

/-! ### `drop` -/

@[simp] theorem drop_mode (p : Nat) (s : State) : (drop p s).mode = s.mode := rfl
@[simp] theorem drop_acc (p : Nat) (s : State) :
    (drop p s).acc = BitVec.ofNat 19 (s.acc.toNat >>> p) := rfl
@[simp] theorem drop_len (p : Nat) (s : State) :
    (drop p s).len = BitVec.ofNat 5 (s.len.toNat - p) := rfl
@[simp] theorem drop_p (p : Nat) (s : State) : (drop p s).p = s.p := rfl
@[simp] theorem drop_icnt (p : Nat) (s : State) : (drop p s).icnt = s.icnt := rfl
@[simp] theorem drop_ocnt (p : Nat) (s : State) : (drop p s).ocnt = s.ocnt := rfl
@[simp] theorem drop_done (p : Nat) (s : State) : (drop p s).done = s.done := rfl
@[simp] theorem drop_fault (p : Nat) (s : State) : (drop p s).fault = s.fault := rfl
@[simp] theorem drop_fcmd (p : Nat) (s : State) : (drop p s).fcmd = s.fcmd := rfl
@[simp] theorem drop_outq (p : Nat) (s : State) : (drop p s).outq = s.outq := rfl
@[simp] theorem drop_bufmem (p : Nat) (s : State) : (drop p s).bufmem = s.bufmem := rfl
@[simp] theorem drop_input (p : Nat) (s : State) : (drop p s).input = s.input := rfl
@[simp] theorem drop_pos (p : Nat) (s : State) : (drop p s).pos = s.pos := rfl
@[simp] theorem drop_bufResult (p : Nat) (s : State) : (drop p s).bufResult = s.bufResult := rfl

/-! ### `init` -/

@[simp] theorem init_mode (m : Mode) (q : BitVec 3) (s : State) : (init m q s).mode = m := rfl
@[simp] theorem init_acc (m : Mode) (q : BitVec 3) (s : State) : (init m q s).acc = 0 := rfl
@[simp] theorem init_len (m : Mode) (q : BitVec 3) (s : State) : (init m q s).len = 0 := rfl
@[simp] theorem init_p (m : Mode) (q : BitVec 3) (s : State) : (init m q s).p = q := rfl
@[simp] theorem init_icnt (m : Mode) (q : BitVec 3) (s : State) : (init m q s).icnt = 0 := rfl
@[simp] theorem init_ocnt (m : Mode) (q : BitVec 3) (s : State) : (init m q s).ocnt = 0 := rfl
@[simp] theorem init_done (m : Mode) (q : BitVec 3) (s : State) : (init m q s).done = false := rfl
@[simp] theorem init_fault (m : Mode) (q : BitVec 3) (s : State) :
    (init m q s).fault = s.fault := rfl
@[simp] theorem init_fcmd (m : Mode) (q : BitVec 3) (s : State) : (init m q s).fcmd = s.fcmd := rfl
@[simp] theorem init_outq (m : Mode) (q : BitVec 3) (s : State) : (init m q s).outq = [] := rfl
@[simp] theorem init_bufmem (m : Mode) (q : BitVec 3) (s : State) :
    (init m q s).bufmem = s.bufmem := rfl
@[simp] theorem init_input (m : Mode) (q : BitVec 3) (s : State) :
    (init m q s).input = s.input := rfl
@[simp] theorem init_pos (m : Mode) (q : BitVec 3) (s : State) : (init m q s).pos = s.pos := rfl
@[simp] theorem init_bufResult (m : Mode) (q : BitVec 3) (s : State) :
    (init m q s).bufResult = s.bufResult := rfl

/-! ### `commit` -/

@[simp] theorem commit_mode (s : State) : (commit s).mode = .idle := rfl
@[simp] theorem commit_acc (s : State) : (commit s).acc = 0 := rfl
@[simp] theorem commit_len (s : State) : (commit s).len = 0 := rfl
@[simp] theorem commit_p (s : State) : (commit s).p = 0 := rfl
@[simp] theorem commit_icnt (s : State) : (commit s).icnt = s.icnt := rfl
@[simp] theorem commit_ocnt (s : State) : (commit s).ocnt = s.ocnt := rfl
@[simp] theorem commit_done (s : State) : (commit s).done = true := rfl
@[simp] theorem commit_fault (s : State) : (commit s).fault = s.fault := rfl
@[simp] theorem commit_fcmd (s : State) : (commit s).fcmd = s.fcmd := rfl
@[simp] theorem commit_outq (s : State) : (commit s).outq = s.outq := rfl
@[simp] theorem commit_bufmem (s : State) : (commit s).bufmem = s.bufmem := rfl
@[simp] theorem commit_input (s : State) : (commit s).input = s.input := rfl
@[simp] theorem commit_pos (s : State) : (commit s).pos = s.pos := rfl
@[simp] theorem commit_bufResult (s : State) : (commit s).bufResult = s.bufResult := rfl

/-! ### `withdrawBuf` -/

@[simp] theorem withdrawBuf_mode (s : State) : (withdrawBuf s).mode = s.mode := rfl
@[simp] theorem withdrawBuf_acc (s : State) : (withdrawBuf s).acc = s.acc := rfl
@[simp] theorem withdrawBuf_len (s : State) : (withdrawBuf s).len = s.len := rfl
@[simp] theorem withdrawBuf_p (s : State) : (withdrawBuf s).p = s.p := rfl
@[simp] theorem withdrawBuf_icnt (s : State) : (withdrawBuf s).icnt = s.icnt := rfl
@[simp] theorem withdrawBuf_ocnt (s : State) : (withdrawBuf s).ocnt = s.ocnt := rfl
@[simp] theorem withdrawBuf_done (s : State) : (withdrawBuf s).done = s.done := rfl
@[simp] theorem withdrawBuf_fault (s : State) : (withdrawBuf s).fault = s.fault := rfl
@[simp] theorem withdrawBuf_fcmd (s : State) : (withdrawBuf s).fcmd = s.fcmd := rfl
@[simp] theorem withdrawBuf_outq (s : State) : (withdrawBuf s).outq = s.outq := rfl
@[simp] theorem withdrawBuf_bufmem (s : State) : (withdrawBuf s).bufmem = s.bufmem := rfl
@[simp] theorem withdrawBuf_input (s : State) : (withdrawBuf s).input = s.input := rfl
@[simp] theorem withdrawBuf_pos (s : State) : (withdrawBuf s).pos = s.pos := rfl
@[simp] theorem withdrawBuf_bufResult (s : State) : (withdrawBuf s).bufResult = 0 := rfl

/-! ### `publishBuf` -/

@[simp] theorem publishBuf_mode (s : State) : (publishBuf s).mode = s.mode := rfl
@[simp] theorem publishBuf_acc (s : State) : (publishBuf s).acc = s.acc := rfl
@[simp] theorem publishBuf_len (s : State) : (publishBuf s).len = s.len := rfl
@[simp] theorem publishBuf_p (s : State) : (publishBuf s).p = s.p := rfl
@[simp] theorem publishBuf_icnt (s : State) : (publishBuf s).icnt = s.icnt := rfl
@[simp] theorem publishBuf_ocnt (s : State) : (publishBuf s).ocnt = s.ocnt := rfl
@[simp] theorem publishBuf_done (s : State) : (publishBuf s).done = s.done := rfl
@[simp] theorem publishBuf_fault (s : State) : (publishBuf s).fault = s.fault := rfl
@[simp] theorem publishBuf_fcmd (s : State) : (publishBuf s).fcmd = s.fcmd := rfl
@[simp] theorem publishBuf_outq (s : State) : (publishBuf s).outq = s.outq := rfl
@[simp] theorem publishBuf_bufmem (s : State) : (publishBuf s).bufmem = s.bufmem := rfl
@[simp] theorem publishBuf_input (s : State) : (publishBuf s).input = s.input := rfl
@[simp] theorem publishBuf_pos (s : State) : (publishBuf s).pos = s.pos := rfl
@[simp] theorem publishBuf_bufResult (s : State) : (publishBuf s).bufResult = s.ocnt.toNat := rfl

/-! ### `countWord` -/

@[simp] theorem countWord_mode (s : State) : (countWord s).mode = s.mode := rfl
@[simp] theorem countWord_acc (s : State) : (countWord s).acc = s.acc := rfl
@[simp] theorem countWord_len (s : State) : (countWord s).len = s.len := rfl
@[simp] theorem countWord_p (s : State) : (countWord s).p = s.p := rfl
@[simp] theorem countWord_icnt (s : State) : (countWord s).icnt = s.icnt := rfl
@[simp] theorem countWord_ocnt (s : State) : (countWord s).ocnt = s.ocnt := rfl
@[simp] theorem countWord_done (s : State) : (countWord s).done = s.done := rfl
@[simp] theorem countWord_fault (s : State) : (countWord s).fault = s.fault := rfl
@[simp] theorem countWord_fcmd (s : State) : (countWord s).fcmd = s.fcmd := rfl
@[simp] theorem countWord_outq (s : State) : (countWord s).outq = s.outq := rfl
@[simp] theorem countWord_bufmem (s : State) : (countWord s).bufmem = s.bufmem := rfl
@[simp] theorem countWord_input (s : State) : (countWord s).input = s.input := rfl
@[simp] theorem countWord_pos (s : State) : (countWord s).pos = s.pos + 1 := rfl
@[simp] theorem countWord_bufResult (s : State) : (countWord s).bufResult = s.bufResult := rfl

/-! ### `accept` -/

@[simp] theorem accept_mode (s : State) : (accept s).mode = s.mode := rfl
@[simp] theorem accept_acc (s : State) : (accept s).acc = s.acc := rfl
@[simp] theorem accept_len (s : State) : (accept s).len = s.len := rfl
@[simp] theorem accept_p (s : State) : (accept s).p = s.p := rfl
@[simp] theorem accept_icnt (s : State) : (accept s).icnt = s.icnt + 1 := rfl
@[simp] theorem accept_ocnt (s : State) : (accept s).ocnt = s.ocnt := rfl
@[simp] theorem accept_done (s : State) : (accept s).done = s.done := rfl
@[simp] theorem accept_fault (s : State) : (accept s).fault = s.fault := rfl
@[simp] theorem accept_fcmd (s : State) : (accept s).fcmd = s.fcmd := rfl
@[simp] theorem accept_outq (s : State) : (accept s).outq = s.outq := rfl
@[simp] theorem accept_bufmem (s : State) : (accept s).bufmem = s.bufmem := rfl
@[simp] theorem accept_input (s : State) : (accept s).input = s.input := rfl
@[simp] theorem accept_pos (s : State) : (accept s).pos = s.pos := rfl
@[simp] theorem accept_bufResult (s : State) : (accept s).bufResult = s.bufResult := rfl

/-! ### `raise` -/

@[simp] theorem raise_mode (f : FaultCode) (w : Word) (s : State) :
    (raise f w s).mode = s.mode := rfl
@[simp] theorem raise_acc (f : FaultCode) (w : Word) (s : State) : (raise f w s).acc = s.acc := rfl
@[simp] theorem raise_len (f : FaultCode) (w : Word) (s : State) : (raise f w s).len = s.len := rfl
@[simp] theorem raise_p (f : FaultCode) (w : Word) (s : State) : (raise f w s).p = s.p := rfl
@[simp] theorem raise_icnt (f : FaultCode) (w : Word) (s : State) :
    (raise f w s).icnt = s.icnt := rfl
@[simp] theorem raise_ocnt (f : FaultCode) (w : Word) (s : State) :
    (raise f w s).ocnt = s.ocnt := rfl
@[simp] theorem raise_done (f : FaultCode) (w : Word) (s : State) :
    (raise f w s).done = false := rfl
@[simp] theorem raise_fault (f : FaultCode) (w : Word) (s : State) : (raise f w s).fault = f := rfl
@[simp] theorem raise_fcmd (f : FaultCode) (w : Word) (s : State) : (raise f w s).fcmd = w := rfl
@[simp] theorem raise_outq (f : FaultCode) (w : Word) (s : State) : (raise f w s).outq = [] := rfl
@[simp] theorem raise_bufmem (f : FaultCode) (w : Word) (s : State) :
    (raise f w s).bufmem = s.bufmem := rfl
@[simp] theorem raise_input (f : FaultCode) (w : Word) (s : State) :
    (raise f w s).input = s.input := rfl
@[simp] theorem raise_pos (f : FaultCode) (w : Word) (s : State) : (raise f w s).pos = s.pos := rfl
@[simp] theorem raise_bufResult (f : FaultCode) (w : Word) (s : State) :
    (raise f w s).bufResult = s.bufResult := rfl

/-! ### `resetCodec` -/

@[simp] theorem resetCodec_mode (s : State) : (resetCodec s).mode = .idle := rfl
@[simp] theorem resetCodec_acc (s : State) : (resetCodec s).acc = 0 := rfl
@[simp] theorem resetCodec_len (s : State) : (resetCodec s).len = 0 := rfl
@[simp] theorem resetCodec_p (s : State) : (resetCodec s).p = 0 := rfl
@[simp] theorem resetCodec_icnt (s : State) : (resetCodec s).icnt = 0 := rfl
@[simp] theorem resetCodec_ocnt (s : State) : (resetCodec s).ocnt = 0 := rfl
@[simp] theorem resetCodec_done (s : State) : (resetCodec s).done = false := rfl
@[simp] theorem resetCodec_fault (s : State) : (resetCodec s).fault = .noFault := rfl
@[simp] theorem resetCodec_fcmd (s : State) : (resetCodec s).fcmd = 0 := rfl
@[simp] theorem resetCodec_outq (s : State) : (resetCodec s).outq = [] := rfl
@[simp] theorem resetCodec_bufmem (s : State) : (resetCodec s).bufmem = s.bufmem := rfl
@[simp] theorem resetCodec_input (s : State) : (resetCodec s).input = s.input := rfl
@[simp] theorem resetCodec_pos (s : State) : (resetCodec s).pos = s.pos := rfl
@[simp] theorem resetCodec_bufResult (s : State) : (resetCodec s).bufResult = 0 := rfl

/-! ### `takeWord` -/

@[simp] theorem takeWord_mode (rest : List HostEvent) (s : State) :
    (takeWord rest s).mode = s.mode := rfl
@[simp] theorem takeWord_acc (rest : List HostEvent) (s : State) :
    (takeWord rest s).acc = s.acc := rfl
@[simp] theorem takeWord_len (rest : List HostEvent) (s : State) :
    (takeWord rest s).len = s.len := rfl
@[simp] theorem takeWord_p (rest : List HostEvent) (s : State) : (takeWord rest s).p = s.p := rfl
@[simp] theorem takeWord_icnt (rest : List HostEvent) (s : State) :
    (takeWord rest s).icnt = s.icnt := rfl
@[simp] theorem takeWord_ocnt (rest : List HostEvent) (s : State) :
    (takeWord rest s).ocnt = s.ocnt := rfl
@[simp] theorem takeWord_done (rest : List HostEvent) (s : State) :
    (takeWord rest s).done = s.done := rfl
@[simp] theorem takeWord_fault (rest : List HostEvent) (s : State) :
    (takeWord rest s).fault = s.fault := rfl
@[simp] theorem takeWord_fcmd (rest : List HostEvent) (s : State) :
    (takeWord rest s).fcmd = s.fcmd := rfl
@[simp] theorem takeWord_outq (rest : List HostEvent) (s : State) :
    (takeWord rest s).outq = s.outq := rfl
@[simp] theorem takeWord_bufmem (rest : List HostEvent) (s : State) :
    (takeWord rest s).bufmem = s.bufmem := rfl
@[simp] theorem takeWord_input (rest : List HostEvent) (s : State) :
    (takeWord rest s).input = rest := rfl
@[simp] theorem takeWord_pos (rest : List HostEvent) (s : State) :
    (takeWord rest s).pos = s.pos + 1 := rfl
@[simp] theorem takeWord_bufResult (rest : List HostEvent) (s : State) :
    (takeWord rest s).bufResult = s.bufResult := rfl

/-! ### `sendFirst` -/

@[simp] theorem sendFirst_mode (w : Word) (s : State) : (sendFirst w s).mode = s.mode := rfl
@[simp] theorem sendFirst_acc (w : Word) (s : State) : (sendFirst w s).acc = s.acc := rfl
@[simp] theorem sendFirst_len (w : Word) (s : State) : (sendFirst w s).len = s.len := rfl
@[simp] theorem sendFirst_p (w : Word) (s : State) : (sendFirst w s).p = s.p := rfl
@[simp] theorem sendFirst_icnt (w : Word) (s : State) : (sendFirst w s).icnt = s.icnt := rfl
@[simp] theorem sendFirst_ocnt (w : Word) (s : State) : (sendFirst w s).ocnt = s.ocnt := rfl
@[simp] theorem sendFirst_done (w : Word) (s : State) : (sendFirst w s).done = s.done := rfl
@[simp] theorem sendFirst_fault (w : Word) (s : State) : (sendFirst w s).fault = s.fault := rfl
@[simp] theorem sendFirst_fcmd (w : Word) (s : State) : (sendFirst w s).fcmd = s.fcmd := rfl
@[simp] theorem sendFirst_outq (w : Word) (s : State) : (sendFirst w s).outq = s.outq := rfl
@[simp] theorem sendFirst_bufmem (w : Word) (s : State) : (sendFirst w s).bufmem = s.bufmem := rfl
@[simp] theorem sendFirst_input (w : Word) (s : State) :
    (sendFirst w s).input = .command w :: s.input := rfl
@[simp] theorem sendFirst_pos (w : Word) (s : State) : (sendFirst w s).pos = s.pos := rfl
@[simp] theorem sendFirst_bufResult (w : Word) (s : State) :
    (sendFirst w s).bufResult = s.bufResult := rfl

end Sys2Proof.Machine
end

