-- ==== Sys2Proof/Laws/Ops.lean ====
section
/-! SUPPORT. For each shared operation, what it can do, said once. An operation that puts symbols out
is shown to be `emitList` of a list of symbols, on the window it leaves. -/

namespace Sys2Proof.Machine

/-! ### Masks -/

theorem and_mask (a n : Nat) : a &&& mask n = a % 2 ^ n := by
  simp [mask, Nat.and_two_pow_sub_one_eq_mod]

/-! ### The window -/

/-- The window `(acc, len)` replaced, everything else kept. -/
def setWindow (acc len : Nat) (s : State) : State :=
  { s with acc := BitVec.ofNat 19 acc, len := BitVec.ofNat 5 len }

@[simp] theorem setWindow_mode (a l : Nat) (s : State) : (setWindow a l s).mode = s.mode := rfl
@[simp] theorem setWindow_p (a l : Nat) (s : State) : (setWindow a l s).p = s.p := rfl
@[simp] theorem setWindow_icnt (a l : Nat) (s : State) : (setWindow a l s).icnt = s.icnt := rfl
@[simp] theorem setWindow_ocnt (a l : Nat) (s : State) : (setWindow a l s).ocnt = s.ocnt := rfl
@[simp] theorem setWindow_outq (a l : Nat) (s : State) : (setWindow a l s).outq = s.outq := rfl
@[simp] theorem setWindow_bufmem (a l : Nat) (s : State) : (setWindow a l s).bufmem = s.bufmem := rfl
@[simp] theorem setWindow_done (a l : Nat) (s : State) :
    (setWindow a l s).done = s.done := rfl
@[simp] theorem setWindow_fault (a l : Nat) (s : State) :
    (setWindow a l s).fault = s.fault := rfl
@[simp] theorem setWindow_fcmd (a l : Nat) (s : State) :
    (setWindow a l s).fcmd = s.fcmd := rfl
@[simp] theorem setWindow_input (a l : Nat) (s : State) :
    (setWindow a l s).input = s.input := rfl
@[simp] theorem setWindow_pos (a l : Nat) (s : State) :
    (setWindow a l s).pos = s.pos := rfl
@[simp] theorem setWindow_bufResult (a l : Nat) (s : State) :
    (setWindow a l s).bufResult = s.bufResult := rfl
@[simp] theorem setWindow_setWindow (a l a' l' : Nat) (s : State) :
    setWindow a l (setWindow a' l' s) = setWindow a l s := rfl

theorem setWindow_self (s : State) : setWindow s.acc.toNat s.len.toNat s = s := by
  cases s; simp [setWindow]

theorem setWindow_acc_toNat {a l : Nat} (s : State) (h : a < 2 ^ l) (hl : l ≤ 19) :
    (setWindow a l s).acc.toNat = a := by
  have : 2 ^ l ≤ 2 ^ 19 := Nat.pow_le_pow_right (by omega) hl
  simp only [setWindow, BitVec.toNat_ofNat]
  exact Nat.mod_eq_of_lt (by omega)

theorem setWindow_len_toNat {l : Nat} (a : Nat) (s : State) (hl : l ≤ 19) :
    (setWindow a l s).len.toNat = l := by
  simp only [setWindow, BitVec.toNat_ofNat]
  exact Nat.mod_eq_of_lt (by omega)

theorem shift_or {a v nb : Nat} (h : v < 2 ^ nb) : (a <<< nb) ||| v = a * 2 ^ nb + v := by
  rw [Nat.shiftLeft_eq, Nat.mul_comm, Nat.two_pow_add_eq_or_of_lt h]

/-- SHIFT_IN as arithmetic on the window (spec/40_accumulator.md R101). -/
theorem shiftIn_eq {v nb : Nat} (s : State) (h : v < 2 ^ nb) :
    shiftIn v nb s = setWindow (s.acc.toNat * 2 ^ nb + v) (s.len.toNat + nb) s := by
  simp [shiftIn, setWindow, shift_or h]

theorem shifted_lt {a l v nb : Nat} (ha : a < 2 ^ l) (hv : v < 2 ^ nb) :
    a * 2 ^ nb + v < 2 ^ (l + nb) := by
  have : (a + 1) * 2 ^ nb ≤ 2 ^ l * 2 ^ nb := Nat.mul_le_mul_right _ ha
  rw [Nat.pow_add]; linarith

/-- TAKE as arithmetic on the window (spec/40_accumulator.md R102). -/
theorem take_eq (n : Nat) (s : State) :
    take n s = (s.acc.toNat / 2 ^ (s.len.toNat - n) % 2 ^ n,
      setWindow (s.acc.toNat % 2 ^ (s.len.toNat - n)) (s.len.toNat - n) s) := by
  simp [take, setWindow, and_mask, Nat.shiftRight_eq_div_pow]

/-- PAD as arithmetic on the window (spec/40_accumulator.md R104). -/
theorem pad_eq (n : Nat) (s : State) :
    pad n s = (s.acc.toNat * 2 ^ (n - s.len.toNat) % 2 ^ n, setWindow 0 0 s) := by
  simp [pad, setWindow, and_mask, Nat.shiftLeft_eq]

/-- DROP as arithmetic on the window (spec/40_accumulator.md R106). -/
theorem drop_eq (p : Nat) (s : State) :
    drop p s = setWindow (s.acc.toNat / 2 ^ p) (s.len.toNat - p) s := by
  simp [drop, setWindow, Nat.shiftRight_eq_div_pow]

/-! ### The output sinks -/

/-- A list of symbols appended and counted. -/
def pushSymbols (vs : List Byte) (s : State) : State :=
  { s with outq := s.outq ++ vs, ocnt := s.ocnt + BitVec.ofNat 32 vs.length }

@[simp] theorem pushSymbols_mode (vs : List Byte) (s : State) : (pushSymbols vs s).mode = s.mode := rfl
@[simp] theorem pushSymbols_acc (vs : List Byte) (s : State) : (pushSymbols vs s).acc = s.acc := rfl
@[simp] theorem pushSymbols_len (vs : List Byte) (s : State) : (pushSymbols vs s).len = s.len := rfl
@[simp] theorem pushSymbols_p (vs : List Byte) (s : State) : (pushSymbols vs s).p = s.p := rfl
@[simp] theorem pushSymbols_icnt (vs : List Byte) (s : State) : (pushSymbols vs s).icnt = s.icnt := rfl
@[simp] theorem pushSymbols_outq (vs : List Byte) (s : State) :
    (pushSymbols vs s).outq = s.outq ++ vs := rfl
@[simp] theorem pushSymbols_ocnt (vs : List Byte) (s : State) :
    (pushSymbols vs s).ocnt = s.ocnt + BitVec.ofNat 32 vs.length := rfl
@[simp] theorem pushSymbols_bufmem (vs : List Byte) (s : State) :
    (pushSymbols vs s).bufmem = s.bufmem := rfl
@[simp] theorem pushSymbols_done (vs : List Byte) (s : State) :
    (pushSymbols vs s).done = s.done := rfl
@[simp] theorem pushSymbols_fault (vs : List Byte) (s : State) :
    (pushSymbols vs s).fault = s.fault := rfl
@[simp] theorem pushSymbols_fcmd (vs : List Byte) (s : State) :
    (pushSymbols vs s).fcmd = s.fcmd := rfl
@[simp] theorem pushSymbols_input (vs : List Byte) (s : State) :
    (pushSymbols vs s).input = s.input := rfl
@[simp] theorem pushSymbols_pos (vs : List Byte) (s : State) :
    (pushSymbols vs s).pos = s.pos := rfl
@[simp] theorem pushSymbols_bufResult (vs : List Byte) (s : State) :
    (pushSymbols vs s).bufResult = s.bufResult := rfl

theorem pushSymbols_nil (s : State) : pushSymbols [] s = s := by
  cases s; simp [pushSymbols]

theorem pushSymbols_cons (v : Byte) (vs : List Byte) (s : State) :
    pushSymbols (v :: vs) s = pushSymbols vs (pushSymbols [v] s) := by
  have : BitVec.ofNat 32 (vs.length + 1) = BitVec.ofNat 32 vs.length + 1#32 := by
    simp [BitVec.ofNat_add]
  simp only [pushSymbols, List.length_cons, this, List.length_nil, List.append_assoc,
    List.cons_append, List.nil_append, State.mk.injEq, true_and, and_true]
  rw [BitVec.add_comm (BitVec.ofNat 32 vs.length) 1#32, ← BitVec.add_assoc]

@[simp] theorem outqFull_setWindow (c : Config.Params) (a l : Nat) (s : State) :
    outqFull c (setWindow a l s) = outqFull c s := rfl

theorem setWindow_pushSymbols (vs : List Byte) (a l : Nat) (s : State) :
    setWindow a l (pushSymbols vs s) = pushSymbols vs (setWindow a l s) := rfl

@[simp] theorem roomFor_setWindow (c : Config.Params) (a l k : Nat) (s : State) :
    roomFor c (setWindow a l s) k ↔ roomFor c s k := Iff.rfl

theorem roomFor_mono {c : Config.Params} {s : State} {j k : Nat} (h : j ≤ k) (hk : roomFor c s k) :
    roomFor c s j := fun n hn => by have := hk n hn; omega

theorem outqFull_iff (c : Config.Params) (s : State) (h : roomFor c s 0) :
    outqFull c s = true ↔ ¬ roomFor c s 1 := by
  unfold outqFull roomFor at *
  cases hc : c.outqCap with
  | none => simp
  | some n =>
    have := h n hc
    simp only [decide_eq_true_eq, Option.some.injEq, forall_eq']
    omega

theorem roomFor_outqFull {c : Config.Params} {s : State} (h : roomFor c s 1) : outqFull c s = false := by
  unfold outqFull roomFor at *
  cases hc : c.outqCap with
  | none => rfl
  | some n =>
    have := h n hc
    simp only [decide_eq_false_iff_not]
    omega

/-- Only a bounded OUTQ is ever full (spec/10_state.md R33). -/
theorem outqFull_bounded {c : Config.Params} {s : State} (h : outqFull c s = true) :
    c.outqCap ≠ none := fun hn => by simp [outqFull, hn] at h

/-- A list of symbols emitted one after the other. -/
def emitList (c : Config.Params) : List Byte → State → Except FaultCode State
  | [], s => .ok s
  | v :: vs, s => do
    let t ← emit c v s
    emitList c vs t

/-- `emit` answers a state, or raises OutputOverflow; what each means. -/
theorem emit_eq (c : Config.Params) (v : Byte) (s : State) :
    emit c v s = if outqFull c s then .error .outputOverflow else .ok (pushSymbols [v] s) := rfl

theorem emitList_cons (c : Config.Params) (v : Byte) (vs : List Byte) (s : State) :
    emitList c (v :: vs) s =
      if outqFull c s then .error .outputOverflow else emitList c vs (pushSymbols [v] s) := by
  simp only [emitList, emit_eq, bind, Except.bind]
  by_cases h : outqFull c s = true <;> simp [h]

/-- With room, a list of symbols goes out whole. -/
theorem emitList_ok {c : Config.Params} {vs : List Byte} {s : State} (h : roomFor c s vs.length) :
    emitList c vs s = .ok (pushSymbols vs s) := by
  induction vs generalizing s with
  | nil => rw [pushSymbols_nil]; rfl
  | cons v vs ih =>
    have h1 : outqFull c s = false := roomFor_outqFull (roomFor_mono (by simp) h)
    have h2 : roomFor c (pushSymbols [v] s) vs.length := fun n hn => by
      have := h n hn
      simp only [pushSymbols_outq, List.length_append, List.length_cons, List.length_nil] at *
      omega
    rw [pushSymbols_cons]
    simpa [emitList, emit_eq, h1, bind, Except.bind] using ih h2

/-- Without room, a list of symbols raises OutputOverflow. -/
theorem emitList_error {c : Config.Params} {vs : List Byte} {s : State} (h0 : roomFor c s 0)
    (h : ¬ roomFor c s vs.length) : emitList c vs s = .error .outputOverflow := by
  induction vs generalizing s with
  | nil => exact absurd h0 h
  | cons v vs ih =>
    by_cases hf : outqFull c s = true
    · simp [emitList, emit_eq, hf, bind, Except.bind]
    · have hr : roomFor c s 1 := by
        by_contra hn; exact hf ((outqFull_iff c s h0).2 hn)
      have hf' : outqFull c s = false := by simpa using hf
      have h1 : roomFor c (pushSymbols [v] s) 0 := fun n hn => by
        have := hr n hn; simp at this ⊢; omega
      have h2 : ¬ roomFor c (pushSymbols [v] s) vs.length := fun hk => h fun n hn => by
        have := hk n hn; simp at this ⊢; omega
      simpa [emitList, emit_eq, hf', bind, Except.bind] using ih h1 h2

/-- Whatever the room, emitting a list either puts it out whole or raises OutputOverflow, the latter
only with a bounded OUTQ. -/
theorem emitList_cases (c : Config.Params) (vs : List Byte) (s : State) :
    emitList c vs s = .ok (pushSymbols vs s) ∨
    (c.outqCap ≠ none ∧ emitList c vs s = .error .outputOverflow) := by
  induction vs generalizing s with
  | nil => left; rw [pushSymbols_nil]; rfl
  | cons v vs ih =>
    rw [pushSymbols_cons, emitList_cons]
    split
    · next hf => exact .inr ⟨outqFull_bounded hf, rfl⟩
    · exact ih (pushSymbols [v] s)

/-- A list that went out kept OUTQ within its capacity. -/
theorem emitList_roomFor {c : Config.Params} {vs : List Byte} {s t : State} (h0 : roomFor c s 0)
    (h : emitList c vs s = .ok t) : roomFor c s vs.length := by
  by_contra hn
  rw [emitList_error h0 hn] at h
  cases h

theorem emitList_append (c : Config.Params) (xs ys : List Byte) (s : State) :
    emitList c (xs ++ ys) s = (emitList c xs s).bind (emitList c ys) := by
  induction xs generalizing s with
  | nil => rfl
  | cons x xs ih =>
    rw [List.cons_append, emitList_cons, emitList_cons]
    split
    · rfl
    · exact ih _

/-- `bufwrite` writes one byte at OCNT, or raises OutputOverflow (spec/40_accumulator.md R109). -/
theorem bufwrite_eq (c : Config.Params) (v : Byte) (s : State) :
    bufwrite c v s = if (c.bufCap : Nat) ≤ s.ocnt.toNat then .error .outputOverflow
      else .ok { s with bufmem := s.bufmem.write s.ocnt.toNat v, ocnt := s.ocnt + 1 } := rfl

/-! ### Extraction -/

/-- The `k` oldest `n`-bit groups of an `l`-bit window `a`. -/
def groups (n : Nat) : Nat → Nat → Nat → List Nat
  | 0, _, _ => []
  | k + 1, a, l => a / 2 ^ (l - n) % 2 ^ n :: groups n k (a % 2 ^ (l - n)) (l - n)

@[simp] theorem groups_length (n k a l : Nat) : (groups n k a l).length = k := by
  induction k generalizing a l with
  | zero => rfl
  | succ k ih => simp [groups, ih]

/-- The groups by their place in the window. -/
theorem groups_eq {n k a l : Nat} (h : n * k ≤ l) :
    groups n k a l = (List.range k).map (fun j => a / 2 ^ (l - n * (j + 1)) % 2 ^ n) := by
  induction k generalizing a l with
  | zero => rfl
  | succ k ih =>
    rw [Nat.mul_succ] at h
    rw [groups, List.range_succ_eq_map, List.map_cons, List.map_map, ih (by omega)]
    simp only [Nat.zero_add, Nat.mul_one, List.cons.injEq, true_and]
    apply List.map_congr_left
    intro j hj
    have hj' : n * (j + 1) ≤ n * k := Nat.mul_le_mul_left _ (by simpa using hj)
    have e1 : l - n - n * (j + 1) = l - n * (j + 1 + 1) := by rw [Nat.mul_succ n (j + 1)]; omega
    have e2 : l - n = (l - n * (j + 1 + 1)) + n * (j + 1) := by rw [Nat.mul_succ n (j + 1)]; omega
    simp only [Function.comp, Nat.succ_eq_add_one]
    conv_lhs => rw [e1, e2, Nat.pow_add, Nat.mod_mul_right_div_self]
    exact Nat.mod_mod_of_dvd _ (Nat.pow_dvd_pow 2 (by nlinarith))

/-- How many groups a loop `while LEN >= threshold` takes from `l` bits. -/
def passes (threshold n : Nat) : Nat → Nat → Nat
  | 0, _ => 0
  | fuel + 1, l => if threshold ≤ l then passes threshold n fuel (l - n) + 1 else 0

/-- EXTRACT7 after a byte came in (spec/41_encode.md R135). -/
theorem passes_seven {l : Nat} (h1 : 8 ≤ l) (h2 : l ≤ 14) : passes 7 7 l l = l / 7 := by
  interval_cases l <;> rfl

/-- The loop of D64.UNIT after a unit came in (spec/43_decode_base64.md R177). -/
theorem passes_six {l p : Nat} (h : l ≤ 12 + p) (hp : p ≤ 7) : passes (6 + p) 6 l l = (l - p) / 6 := by
  have : l ≤ 19 := by omega
  interval_cases p <;> interval_cases l <;> rfl

theorem mod_two_pow_mod {a i j : Nat} (h : i ≤ j) : a % 2 ^ j % 2 ^ i = a % 2 ^ i :=
  Nat.mod_mod_of_dvd a (Nat.pow_dvd_pow 2 h)

/-- The extraction loop puts out the groups of the window and keeps the bits below them. -/
theorem drainLoop_eq (c : Config.Params) {threshold n : Nat} (symbol : Nat → Byte) (fuel : Nat)
    {a l : Nat} (s : State) (ha : a < 2 ^ l) (hl : l ≤ 19) :
    drainLoop c threshold n symbol fuel (setWindow a l s) =
      emitList c ((groups n (passes threshold n fuel l) a l).map symbol)
        (setWindow (a % 2 ^ (l - passes threshold n fuel l * n)) (l - passes threshold n fuel l * n) s) := by
  induction fuel generalizing a l s with
  | zero => simp [drainLoop, passes, groups, emitList, Nat.mod_eq_of_lt ha]
  | succ fuel ih =>
    by_cases h : threshold ≤ l
    · have hlt : a % 2 ^ (l - n) < 2 ^ (l - n) := Nat.mod_lt _ (by positivity)
      have e1 : l - n - passes threshold n fuel (l - n) * n
          = l - (passes threshold n fuel (l - n) + 1) * n := by
        rw [Nat.add_mul]; omega
      have e2 : a % 2 ^ (l - n) % 2 ^ (l - n - passes threshold n fuel (l - n) * n)
          = a % 2 ^ (l - n - passes threshold n fuel (l - n) * n) := mod_two_pow_mod (by omega)
      have ihh := ih (pushSymbols [symbol (a / 2 ^ (l - n) % 2 ^ n)] s) hlt (by omega : l - n ≤ 19)
      rw [setWindow_pushSymbols, setWindow_pushSymbols, e2, e1] at ihh
      simp only [drainLoop, take_eq, setWindow_len_toNat _ _ hl, setWindow_acc_toNat _ ha hl,
        if_pos h, passes, groups, List.map_cons, emitList_cons, emit_eq, setWindow_setWindow,
        outqFull_setWindow, bind, Except.bind]
      by_cases hf : outqFull c s = true
      · simp [hf]
      · simpa [hf] using ihh
    · simp [drainLoop, passes, groups, emitList, setWindow_len_toNat _ _ hl, h, Nat.mod_eq_of_lt ha]

/-- The loop of EXTRACT7 and of D64.UNIT, in one equation (spec/40_accumulator.md R103,
spec/43_decode_base64.md R172). -/
theorem drain_eq (c : Config.Params) {threshold n : Nat} (symbol : Nat → Byte) {a l : Nat} (s : State)
    (ha : a < 2 ^ l) (hl : l ≤ 19) :
    drain c threshold n symbol (setWindow a l s) =
      emitList c ((groups n (passes threshold n l l) a l).map symbol)
        (setWindow (a % 2 ^ (l - passes threshold n l l * n)) (l - passes threshold n l l * n) s) := by
  rw [drain, setWindow_len_toNat _ _ hl, drainLoop_eq c symbol l s ha hl]

/-- PACK8 with the OUTQ sink: at most one byte goes out (spec/40_accumulator.md R105). -/
theorem pack8_emit_eq (c : Config.Params) {a l : Nat} (s : State) (ha : a < 2 ^ l) (hl : l ≤ 19) :
    pack8 (emit c) (setWindow a l s) =
      if 8 ≤ l then
        emitList c [BitVec.ofNat 8 (a / 2 ^ (l - 8))] (setWindow (a % 2 ^ (l - 8)) (l - 8) s)
      else .ok (setWindow a l s) := by
  simp only [pack8, take_eq, setWindow_len_toNat _ _ hl, setWindow_acc_toNat _ ha hl,
    setWindow_setWindow, emitList, bind, Except.bind]
  have : BitVec.ofNat 8 (a / 2 ^ (l - 8) % 2 ^ 8) = BitVec.ofNat 8 (a / 2 ^ (l - 8)) := by
    apply BitVec.eq_of_toNat_eq; simp
  rw [this]
  split
  · cases emit c (BitVec.ofNat 8 (a / 2 ^ (l - 8))) (setWindow (a % 2 ^ (l - 8)) (l - 8) s) <;> rfl
  · rfl

/-- PACK8 with the BUFMEM sink: at most one byte is written. -/
theorem pack8_bufwrite_eq (c : Config.Params) {a l : Nat} (s : State) (ha : a < 2 ^ l) (hl : l ≤ 19) :
    pack8 (bufwrite c) (setWindow a l s) =
      if 8 ≤ l then
        bufwrite c (BitVec.ofNat 8 (a / 2 ^ (l - 8))) (setWindow (a % 2 ^ (l - 8)) (l - 8) s)
      else .ok (setWindow a l s) := by
  simp only [pack8, take_eq, setWindow_len_toNat _ _ hl, setWindow_acc_toNat _ ha hl,
    setWindow_setWindow]
  have : BitVec.ofNat 8 (a / 2 ^ (l - 8) % 2 ^ 8) = BitVec.ofNat 8 (a / 2 ^ (l - 8)) := by
    apply BitVec.eq_of_toNat_eq; simp
  rw [this]

/-- The last zero-filled group (spec/40_accumulator.md R104): nothing goes out of an empty window. -/
theorem flush_eq (c : Config.Params) (n : Nat) (symbol : Nat → Byte) {a l : Nat} (s : State)
    (ha : a < 2 ^ l) (hl : l ≤ 19) :
    flush c n symbol (setWindow a l s) =
      emitList c (if 0 < l then [symbol (a * 2 ^ (n - l) % 2 ^ n)] else []) (setWindow 0 0 s) := by
  simp only [flush, pad_eq, setWindow_len_toNat _ _ hl, setWindow_acc_toNat _ ha hl,
    setWindow_setWindow]
  by_cases h : 0 < l
  · simp only [if_pos h, emitList, bind, Except.bind]
    cases emit c (symbol (a * 2 ^ (n - l) % 2 ^ n)) (setWindow 0 0 s) <;> rfl
  · have h0 : l = 0 := by omega
    subst h0
    have : a = 0 := by simpa using ha
    subst this
    simp [emitList]

/-- The number of `=` that brings a count to a multiple of 4. -/
def padCount (ocnt : Nat) : Nat := (4 - ocnt % 4) % 4

theorem padLoop_eq (c : Config.Params) (fuel : Nat) (s : State) (h : padCount s.ocnt.toNat ≤ fuel) :
    padLoop c fuel s = emitList c (List.replicate (padCount s.ocnt.toNat) padChar) s := by
  induction fuel generalizing s with
  | zero =>
    have : padCount s.ocnt.toNat = 0 := by omega
    simp [padLoop, this, emitList]
  | succ fuel ih =>
    by_cases h4 : s.ocnt.toNat % 4 = 0
    · have : padCount s.ocnt.toNat = 0 := by simp [padCount, h4]
      simp [padLoop, h4, this, emitList]
    · have hm : (pushSymbols [padChar] s).ocnt.toNat % 4 = (s.ocnt.toNat + 1) % 4 := by
        simp only [pushSymbols_ocnt, List.length_cons, List.length_nil, BitVec.toNat_add,
          BitVec.toNat_ofNat]
        omega
      have hc : padCount s.ocnt.toNat = padCount (pushSymbols [padChar] s).ocnt.toNat + 1 := by
        unfold padCount; rw [hm]; omega
      have hstep := ih (pushSymbols [padChar] s) (by omega)
      rw [hc, List.replicate_succ]
      simp only [padLoop, if_neg h4, emitList_cons, emit_eq, bind, Except.bind]
      by_cases hf : outqFull c s = true
      · simp [hf]
      · simpa [hf] using hstep

/-- The `=` padding of D64.END (spec/43_decode_base64.md R173). -/
theorem padToFour_eq (c : Config.Params) (s : State) :
    padToFour c s = emitList c (List.replicate (padCount s.ocnt.toNat) padChar) s :=
  padLoop_eq c 3 s (by unfold padCount; omega)

/-! ### Checks -/

theorem getLsbD_seven_iff (u : Byte) : u.getLsbD 7 = true ↔ 128 ≤ u.toNat := by
  have := u.isLt
  rw [← BitVec.testBit_toNat, Nat.testBit_eq_decide_div_mod_eq]
  simp only [decide_eq_true_eq]
  omega

/-- CHECK_UNIT lets a unit pass exactly when it is below 128 (spec/40_accumulator.md R110). -/
theorem checkUnit_eq (u : Byte) :
    checkUnit u = if u.toNat ≤ 127 then .ok () else .error .invalidInput := by
  unfold checkUnit
  by_cases h : 128 ≤ u.toNat
  · rw [if_pos ((getLsbD_seven_iff u).2 h), if_neg (by omega)]
  · rw [if_neg (fun h' => h ((getLsbD_seven_iff u).1 h')), if_pos (by omega)]

/-- The table of spec/43_decode_base64.md R171. -/
theorem paddingOf_residue {k : Byte} (h : k.toNat ≤ 7) :
    (paddingOf (residue k)).toNat = (7 * k.toNat) % 8 := by
  have : (residue k).toNat = k.toNat := by
    simp [residue, BitVec.extractLsb'_toNat]; omega
  simp only [paddingOf, this, BitVec.toNat_ofNat]
  omega

/-! ### The common step -/

/-- An illegal word is ignored, or raises IllegalCommand. -/
theorem illegalCommand_cases (w : Word) (s : State) :
    (s.fault ≠ .noFault ∧ illegalCommand w s = s) ∨
    (s.fault = .noFault ∧ illegalCommand w s = raise .illegalCommand w s) := by
  unfold illegalCommand; split <;> simp_all

@[simp] theorem conclude_ok (w : Word) (s t : State) : conclude w s (.ok t) = t := rfl

@[simp] theorem conclude_error (w : Word) (s : State) (f : FaultCode) :
    conclude w s (.error f) = raise f w s := rfl

/-- Everything the common step of a command can do (spec/40_accumulator.md R100). -/
theorem runCommand_cases (i : Instr) (required : Mode) (f : State → Except FaultCode State)
    (s : State) :
    (s.fault ≠ .noFault ∧ runCommand i required f s = s) ∨
    (s.fault = .noFault ∧ s.mode ≠ required ∧
      runCommand i required f s = raise .sequenceError (encode i) s) ∨
    (s.fault = .noFault ∧ s.mode = required ∧ ∃ t, f s = .ok t ∧ runCommand i required f s = t) ∨
    (s.fault = .noFault ∧ s.mode = required ∧
      ∃ e, f s = .error e ∧ runCommand i required f s = raise e (encode i) s) := by
  unfold runCommand
  by_cases h : s.fault = .noFault
  · by_cases hm : s.mode = required
    · cases hf : f s <;> simp [h, hm]
    · simp [h, hm]
  · simp [h]

/-- The command runs: no fault is recorded and the MODE is the required one. -/
theorem runCommand_runs {i : Instr} {required : Mode} {f : State → Except FaultCode State} {s : State}
    (h : s.fault = .noFault) (hm : s.mode = required) :
    runCommand i required f s = conclude (encode i) s (f s) := by
  simp only [runCommand, h, hm, if_true]

end Sys2Proof.Machine
end

