-- ==== Sys2Proof/Laws/Commands.lean ====
section
/-! SUPPORT. Each element and END command, when it runs within the bounds of its mode, as one emission
or one write on the window it leaves. -/

namespace Sys2Proof.Machine

/-- The machine's meaning of a command is its effect for the machine's own parameters. -/
theorem exec_eq_effect (i : Instr) (s : State) : exec i s = .next (effect Config.params i s) := by
  cases i <;> rfl

theorem encByte_runs (c : Config.Params) (b : Byte) (s : State) (hf : s.fault = .noFault)
    (hm : s.mode = .enc) (hl : s.len.toNat ≤ 6) (ha : s.acc.toNat < 2 ^ s.len.toNat) :
    encByte c b s = conclude (encode (.encByte b)) s
      ((emitList c
        ((groups 7 ((s.len.toNat + 8) / 7) (s.acc.toNat * 256 + b.toNat) (s.len.toNat + 8)).map
          (BitVec.ofNat 8))
        (setWindow
          ((s.acc.toNat * 256 + b.toNat) % 2 ^ (s.len.toNat + 8 - (s.len.toNat + 8) / 7 * 7))
          (s.len.toNat + 8 - (s.len.toNat + 8) / 7 * 7) s)).map accept) := by
  have hb : b.toNat < 2 ^ 8 := b.isLt
  rw [encByte, runCommand_runs hf hm]
  simp only [extract7, shiftIn_eq s hb]
  rw [drain_eq c _ s (shifted_lt ha hb) (by omega), passes_seven (by omega) (by omega)]
  rfl

theorem encEnd_runs (c : Config.Params) (s : State) (hf : s.fault = .noFault) (hm : s.mode = .enc)
    (hl : s.len.toNat ≤ 6) (ha : s.acc.toNat < 2 ^ s.len.toNat) :
    encEnd c s = conclude (encode .encEnd) s
      ((emitList c
        (if 0 < s.len.toNat then [BitVec.ofNat 8 (s.acc.toNat * 2 ^ (7 - s.len.toNat))] else [])
        (setWindow 0 0 s)).map commit) := by
  have h := flush_eq c 7 (BitVec.ofNat 8) s ha (by omega)
  have e : s.acc.toNat * 2 ^ (7 - s.len.toNat) % 2 ^ 7 = s.acc.toNat * 2 ^ (7 - s.len.toNat) := by
    apply Nat.mod_eq_of_lt
    calc _ < 2 ^ s.len.toNat * 2 ^ (7 - s.len.toNat) := Nat.mul_lt_mul_of_pos_right ha (by positivity)
      _ = 2 ^ 7 := by rw [← Nat.pow_add]; congr 1; omega
  rw [setWindow_self, e] at h
  rw [encEnd, runCommand_runs hf hm, h]

theorem decbUnit_runs (c : Config.Params) (u : Byte) (s : State) (hf : s.fault = .noFault)
    (hm : s.mode = .decb) (hl : s.len.toNat ≤ 7) (ha : s.acc.toNat < 2 ^ s.len.toNat)
    (hu : u.toNat ≤ 127) :
    decbUnit c u s = conclude (encode (.decbUnit u)) s
      ((if 0 < s.len.toNat then
          emitList c [BitVec.ofNat 8 ((s.acc.toNat * 128 + u.toNat) / 2 ^ (s.len.toNat - 1))]
            (setWindow ((s.acc.toNat * 128 + u.toNat) % 2 ^ (s.len.toNat - 1)) (s.len.toNat - 1) s)
        else .ok (setWindow (s.acc.toNat * 128 + u.toNat) (s.len.toNat + 7) s)).map accept) := by
  have hb : u.toNat < 2 ^ 7 := by omega
  rw [decbUnit, runCommand_runs hf hm]
  simp only [checkUnit_eq, if_pos hu, shiftIn_eq s hb, bind, Except.bind]
  rw [pack8_emit_eq c s (shifted_lt ha hb) (by omega), show s.len.toNat + 7 - 8 = s.len.toNat - 1 by omega]
  simp only [show 8 ≤ s.len.toNat + 7 ↔ 0 < s.len.toNat by omega, show 2 ^ 7 = 128 from rfl]

theorem dbufUnit_runs (c : Config.Params) (u : Byte) (s : State) (hf : s.fault = .noFault)
    (hm : s.mode = .dbuf) (hl : s.len.toNat ≤ 7) (ha : s.acc.toNat < 2 ^ s.len.toNat)
    (hu : u.toNat ≤ 127) :
    dbufUnit c u s = conclude (encode (.dbufUnit u)) s
      ((if 0 < s.len.toNat then
          bufwrite c (BitVec.ofNat 8 ((s.acc.toNat * 128 + u.toNat) / 2 ^ (s.len.toNat - 1)))
            (setWindow ((s.acc.toNat * 128 + u.toNat) % 2 ^ (s.len.toNat - 1)) (s.len.toNat - 1) s)
        else .ok (setWindow (s.acc.toNat * 128 + u.toNat) (s.len.toNat + 7) s)).map accept) := by
  have hb : u.toNat < 2 ^ 7 := by omega
  rw [dbufUnit, runCommand_runs hf hm]
  simp only [checkUnit_eq, if_pos hu, shiftIn_eq s hb, bind, Except.bind]
  rw [pack8_bufwrite_eq c s (shifted_lt ha hb) (by omega),
    show s.len.toNat + 7 - 8 = s.len.toNat - 1 by omega]
  simp only [show 8 ≤ s.len.toNat + 7 ↔ 0 < s.len.toNat by omega, show 2 ^ 7 = 128 from rfl]

theorem d64Unit_runs (c : Config.Params) (u : Byte) (s : State) (hf : s.fault = .noFault)
    (hm : s.mode = .d64) (hl : s.len.toNat ≤ 5 + s.p.toNat) (ha : s.acc.toNat < 2 ^ s.len.toNat)
    (hu : u.toNat ≤ 127) :
    d64Unit c u s = conclude (encode (.d64Unit u)) s
      ((emitList c
        ((groups 6 ((s.len.toNat + 7 - s.p.toNat) / 6) (s.acc.toNat * 128 + u.toNat)
          (s.len.toNat + 7)).map b64Char)
        (setWindow
          ((s.acc.toNat * 128 + u.toNat) % 2 ^ (s.len.toNat + 7 - (s.len.toNat + 7 - s.p.toNat) / 6 * 6))
          (s.len.toNat + 7 - (s.len.toNat + 7 - s.p.toNat) / 6 * 6) s)).map accept) := by
  have hb : u.toNat < 2 ^ 7 := by omega
  have hp := s.p.isLt
  rw [d64Unit, runCommand_runs hf hm]
  simp only [checkUnit_eq, if_pos hu, shiftIn_eq s hb, bind, Except.bind]
  rw [drain_eq c _ s (shifted_lt ha hb) (by omega), passes_six (by omega) (by omega)]
  rfl

/-- The symbols D64.END puts out: the last character, then `=` (spec/43_decode_base64.md R173). -/
def d64EndSymbols (s : State) : List Byte :=
  (if s.len.toNat = s.p.toNat then []
    else [b64Char (s.acc.toNat / 2 ^ s.p.toNat * 2 ^ (6 - (s.len.toNat - s.p.toNat)))]) ++
  List.replicate (padCount (s.ocnt.toNat + (if s.len.toNat = s.p.toNat then 0 else 1))) padChar

theorem d64End_runs (c : Config.Params) (s : State) (hf : s.fault = .noFault) (hm : s.mode = .d64)
    (hk : (7 * s.icnt.toNat) % 8 = s.p.toNat) (hpl : s.p.toNat ≤ s.len.toNat)
    (hl : s.len.toNat ≤ 5 + s.p.toNat) (ha : s.acc.toNat < 2 ^ s.len.toNat) :
    d64End c s = conclude (encode .d64End) s
      ((emitList c (d64EndSymbols s) (setWindow 0 0 s)).map commit) := by
  have hp := s.p.isLt
  have hok : lengthMismatch s = false := by simp [lengthMismatch, hk]
  have hlt : s.acc.toNat / 2 ^ s.p.toNat < 2 ^ (s.len.toNat - s.p.toNat) := by
    rw [Nat.div_lt_iff_lt_mul (by positivity), ← Nat.pow_add, Nat.sub_add_cancel hpl]
    exact ha
  rw [d64End, runCommand_runs hf hm]
  simp only [hok, Bool.false_eq_true, if_false, drop_eq, bind]
  rw [flush_eq c 6 b64Char s hlt (by omega)]
  by_cases h0 : s.len.toNat = s.p.toNat
  · simp [d64EndSymbols, h0, emitList, Except.bind, padToFour_eq]
  · have e : s.acc.toNat / 2 ^ s.p.toNat * 2 ^ (6 - (s.len.toNat - s.p.toNat)) % 2 ^ 6
        = s.acc.toNat / 2 ^ s.p.toNat * 2 ^ (6 - (s.len.toNat - s.p.toNat)) := by
      apply Nat.mod_eq_of_lt
      calc _ < 2 ^ (s.len.toNat - s.p.toNat) * 2 ^ (6 - (s.len.toNat - s.p.toNat)) :=
            Nat.mul_lt_mul_of_pos_right hlt (by positivity)
        _ = 2 ^ 6 := by rw [← Nat.pow_add]; congr 1; omega
    have hc : padCount (s.ocnt + 1#32).toNat = padCount (s.ocnt.toNat + 1) := by
      unfold padCount
      rw [BitVec.toNat_add, show (1#32).toNat = 1 from rfl]
      omega
    rw [e, if_pos (by omega), d64EndSymbols, if_neg h0, if_neg h0, emitList_append]
    rcases emitList_cases c
      [b64Char (s.acc.toNat / 2 ^ s.p.toNat * 2 ^ (6 - (s.len.toNat - s.p.toNat)))]
      (setWindow 0 0 s) with h | ⟨_, h⟩
    · simp only [h, Except.bind, padToFour_eq, pushSymbols_ocnt, setWindow_ocnt, List.length_singleton]
      rw [show BitVec.ofNat 32 1 = 1#32 from rfl, hc]
    · simp only [h, Except.bind, Except.map]

end Sys2Proof.Machine
end

