-- ==== Sys2Proof/Laws/Cases.lean ====
section
/-! SUPPORT. Everything a command can do in any state, said once: it is ignored, it leaves a fault
record, or it completes in one of the shapes of `Completed`. -/

namespace Sys2Proof.Machine

/-- How a command that completes changes the state: a transaction starts, symbols go out, a byte is
written, or a transaction is committed; DBUF.BEGIN and DBUF.END also withdraw and publish the result. -/
inductive Completed (c : Config.Params) : Instr → State → State → Prop
  | start {i : Instr} {s : State} (m : Mode) (q : BitVec 3)
      (hi : i = .encBegin ∨ i = .decbBegin ∨ ∃ k, i = .d64Begin k)
      (hm : m ≠ .idle ∧ m ≠ .dbuf) :
      Completed c i s (init m q s)
  | startBuf {s : State} : Completed c .dbufBegin s (init .dbuf 0 (withdrawBuf s))
  | element {i : Instr} {s : State} (vs : List Byte) (a l : Nat)
      (hi : (∃ b, i = .encByte b) ∨ (∃ u, i = .decbUnit u) ∨ (∃ u, i = .d64Unit u)) :
      Completed c i s (accept (pushSymbols vs (setWindow a l s)))
  | keep {s : State} (u : Byte) (a l : Nat) :
      Completed c (.dbufUnit u) s (accept (setWindow a l s))
  | write {s : State} (u v : Byte) (a l : Nat) (h : s.ocnt.toNat < (c.bufCap : Nat)) :
      Completed c (.dbufUnit u) s (accept { setWindow a l s with
        bufmem := s.bufmem.write s.ocnt.toNat v, ocnt := s.ocnt + 1 })
  | finish {i : Instr} {s : State} (vs : List Byte)
      (hi : (i = .encEnd ∨ i = .d64End) ∨ (i = .decbEnd ∧ vs = [])) :
      Completed c i s (commit (pushSymbols vs s))
  | finishBuf {s : State} : Completed c .dbufEnd s (commit (publishBuf s))

/-- An extraction loop puts out symbols and changes the window, or overflows. -/
theorem drainLoop_cases (c : Config.Params) (threshold n : Nat) (symbol : Nat → Byte) (fuel : Nat)
    (s : State) :
    (∃ vs a l, drainLoop c threshold n symbol fuel s = .ok (pushSymbols vs (setWindow a l s))) ∨
    (c.outqCap ≠ none ∧ drainLoop c threshold n symbol fuel s = .error .outputOverflow) := by
  induction fuel generalizing s with
  | zero => exact .inl ⟨[], _, _, by rw [setWindow_self, pushSymbols_nil]; rfl⟩
  | succ fuel ih =>
    by_cases h : threshold ≤ s.len.toNat
    · simp only [drainLoop, if_pos h, take_eq, emit_eq, outqFull_setWindow, bind, Except.bind]
      by_cases hf : outqFull c s = true
      · exact .inr ⟨outqFull_bounded hf, by simp [hf]⟩
      · simp only [hf, Bool.false_eq_true, if_false]
        rcases ih (pushSymbols [symbol (s.acc.toNat / 2 ^ (s.len.toNat - n) % 2 ^ n)]
          (setWindow (s.acc.toNat % 2 ^ (s.len.toNat - n)) (s.len.toNat - n) s)) with ⟨vs, a, l, h⟩ | h
        · left
          refine ⟨symbol (s.acc.toNat / 2 ^ (s.len.toNat - n) % 2 ^ n) :: vs, a, l, h.trans ?_⟩
          exact congrArg Except.ok (pushSymbols_cons _ vs (setWindow a l s)).symm
        · exact .inr h
    · exact .inl ⟨[], _, _, by
        rw [setWindow_self, pushSymbols_nil, drainLoop, if_neg h]⟩

theorem drain_cases (c : Config.Params) (threshold n : Nat) (symbol : Nat → Byte) (s : State) :
    (∃ vs a l, drain c threshold n symbol s = .ok (pushSymbols vs (setWindow a l s))) ∨
    (c.outqCap ≠ none ∧ drain c threshold n symbol s = .error .outputOverflow) :=
  drainLoop_cases c threshold n symbol _ s

theorem pack8_emit_cases (c : Config.Params) (s : State) :
    (∃ vs a l, pack8 (emit c) s = .ok (pushSymbols vs (setWindow a l s))) ∨
    (c.outqCap ≠ none ∧ pack8 (emit c) s = .error .outputOverflow) := by
  unfold pack8
  split
  · rw [take_eq, emit_eq]
    split
    · next h => exact .inr ⟨outqFull_bounded h, rfl⟩
    · exact .inl ⟨_, _, _, rfl⟩
  · exact .inl ⟨[], _, _, by rw [setWindow_self, pushSymbols_nil]⟩

theorem pack8_bufwrite_cases (c : Config.Params) (s : State) :
    pack8 (bufwrite c) s = .ok s ∨
    (s.ocnt.toNat < (c.bufCap : Nat) ∧ ∃ v a l, pack8 (bufwrite c) s = .ok { setWindow a l s with
      bufmem := s.bufmem.write s.ocnt.toNat v, ocnt := s.ocnt + 1 }) ∨
    pack8 (bufwrite c) s = .error .outputOverflow := by
  unfold pack8
  split
  · rw [take_eq, bufwrite_eq]
    split
    · exact .inr (.inr rfl)
    · next h => exact .inr (.inl ⟨by simpa using h, _, _, _, rfl⟩)
  · exact .inl rfl

theorem flush_cases (c : Config.Params) (n : Nat) (symbol : Nat → Byte) (s : State) :
    (∃ vs a l, flush c n symbol s = .ok (pushSymbols vs (setWindow a l s))) ∨
    (c.outqCap ≠ none ∧ flush c n symbol s = .error .outputOverflow) := by
  unfold flush
  split
  · rw [pad_eq, emit_eq]
    split
    · next h => exact .inr ⟨outqFull_bounded h, rfl⟩
    · exact .inl ⟨_, _, _, rfl⟩
  · exact .inl ⟨[], _, _, by rw [setWindow_self, pushSymbols_nil]⟩

theorem pushSymbols_pushSymbols (vs ws : List Byte) (s : State) :
    pushSymbols ws (pushSymbols vs s) = pushSymbols (vs ++ ws) s := by
  induction vs generalizing s with
  | nil => rw [pushSymbols_nil, List.nil_append]
  | cons v vs ih => rw [List.cons_append, pushSymbols_cons, ih, ← pushSymbols_cons]

theorem commit_pushSymbols_setWindow (vs : List Byte) (a l : Nat) (s : State) :
    commit (pushSymbols vs (setWindow a l s)) = commit (pushSymbols vs s) := rfl

/-- Everything a command that runs (no fault recorded, the right MODE) can do: complete, or raise
InvalidInput, LengthMismatch or OutputOverflow in the cases named. -/
theorem runs_cases (c : Config.Params) (i : Instr) (s : State) (hf : s.fault = .noFault)
    (hm : s.mode = requiredMode i) (hw : i.WellFormed) :
    Completed c i s (effect c i s) ∨
    ((∃ u : Byte, 127 < u.toNat ∧ (i = .decbUnit u ∨ i = .d64Unit u ∨ i = .dbufUnit u)) ∧
      effect c i s = raise .invalidInput (encode i) s) ∨
    (i = .d64End ∧ (7 * s.icnt.toNat) % 8 ≠ s.p.toNat ∧
      effect c i s = raise .lengthMismatch (encode i) s) ∨
    ((∀ u : Byte, (i = .decbUnit u ∨ i = .d64Unit u ∨ i = .dbufUnit u) → u.toNat ≤ 127) ∧
      (i = .d64End → (7 * s.icnt.toNat) % 8 = s.p.toNat) ∧
      (c.outqCap = none → ∃ u, i = .dbufUnit u) ∧
      effect c i s = raise .outputOverflow (encode i) s) := by
  cases i with
  | encBegin =>
    have hm : s.mode = .idle := hm
    left
    rw [effect, encBegin, runCommand_runs hf hm]
    exact .start _ _ (by simp) (by simp)
  | decbBegin =>
    have hm : s.mode = .idle := hm
    left
    rw [effect, decbBegin, runCommand_runs hf hm]
    exact .start _ _ (by simp) (by simp)
  | dbufBegin =>
    have hm : s.mode = .idle := hm
    left
    rw [effect, dbufBegin, runCommand_runs hf hm]
    exact .startBuf
  | d64Begin k =>
    have hm : s.mode = .idle := hm
    left
    have hk : k.toNat ≤ 7 := by simpa [Instr.WellFormed, Instr.wellFormed] using hw
    rw [effect, d64Begin, if_pos hk, runCommand_runs hf hm]
    exact .start _ _ (by simp) (by simp)
  | decbEnd =>
    have hm : s.mode = .decb := hm
    left
    rw [effect, decbEnd, runCommand_runs hf hm]
    have := Completed.finish (c := c) (i := .decbEnd) (s := s) [] (by simp)
    rwa [pushSymbols_nil] at this
  | dbufEnd =>
    have hm : s.mode = .dbuf := hm
    left
    rw [effect, dbufEnd, runCommand_runs hf hm]
    exact .finishBuf
  | encByte b =>
    have hm : s.mode = .enc := hm
    rw [effect, encByte, runCommand_runs hf hm, extract7]
    rcases drain_cases c 7 7 (BitVec.ofNat 8) (shiftIn b.toNat 8 s) with ⟨vs, a, l, h⟩ | ⟨hc, h⟩
    · left
      rw [h]
      exact .element (s := s) vs a l (by simp)
    · exact .inr (.inr (.inr ⟨by simp, by simp, fun hn => absurd hn hc, by rw [h]; rfl⟩))
  | encEnd =>
    have hm : s.mode = .enc := hm
    rw [effect, encEnd, runCommand_runs hf hm]
    rcases flush_cases c 7 (BitVec.ofNat 8) s with ⟨vs, a, l, h⟩ | ⟨hc, h⟩
    · left
      rw [h]
      exact .finish (s := s) vs (by simp)
    · exact .inr (.inr (.inr ⟨by simp, by simp, fun hn => absurd hn hc, by rw [h]; rfl⟩))
  | decbUnit u =>
    have hm : s.mode = .decb := hm
    rw [effect, decbUnit, runCommand_runs hf hm, checkUnit_eq]
    by_cases hu : u.toNat ≤ 127
    · rcases pack8_emit_cases c (shiftIn u.toNat 7 s) with ⟨vs, a, l, h⟩ | ⟨hc, h⟩
      · left
        simp only [if_pos hu, bind, Except.bind, h]
        exact .element (s := s) vs a l (by simp)
      · refine .inr (.inr (.inr ⟨by simpa using hu, by simp, fun hn => absurd hn hc, ?_⟩))
        simp only [if_pos hu, bind, Except.bind, h, Except.map, conclude_error]
    · refine .inr (.inl ⟨⟨u, by omega, by simp⟩, ?_⟩)
      simp only [if_neg hu, bind, Except.bind, conclude_error]
  | d64Unit u =>
    have hm : s.mode = .d64 := hm
    rw [effect, d64Unit, runCommand_runs hf hm, checkUnit_eq]
    by_cases hu : u.toNat ≤ 127
    · rcases drain_cases c (6 + s.p.toNat) 6 b64Char (shiftIn u.toNat 7 s) with ⟨vs, a, l, h⟩ | ⟨hc, h⟩
      · left
        simp only [if_pos hu, bind, Except.bind, h]
        exact .element (s := s) vs a l (by simp)
      · refine .inr (.inr (.inr ⟨by simpa using hu, by simp, fun hn => absurd hn hc, ?_⟩))
        simp only [if_pos hu, bind, Except.bind, h, Except.map, conclude_error]
    · refine .inr (.inl ⟨⟨u, by omega, by simp⟩, ?_⟩)
      simp only [if_neg hu, bind, Except.bind, conclude_error]
  | dbufUnit u =>
    have hm : s.mode = .dbuf := hm
    rw [effect, dbufUnit, runCommand_runs hf hm, checkUnit_eq]
    by_cases hu : u.toNat ≤ 127
    · have hs : shiftIn u.toNat 7 s = setWindow (s.acc.toNat * 2 ^ 7 + u.toNat) (s.len.toNat + 7) s :=
        shiftIn_eq s (by omega)
      rcases pack8_bufwrite_cases c (shiftIn u.toNat 7 s) with h | ⟨hc, v, a, l, h⟩ | h
      · left
        simp only [if_pos hu, bind, Except.bind, h]
        rw [hs]
        exact .keep (s := s) u _ _
      · left
        simp only [if_pos hu, bind, Except.bind, h]
        exact .write (s := s) u v a l hc
      · refine .inr (.inr (.inr ⟨by simpa using hu, by simp, fun _ => ⟨u, rfl⟩, ?_⟩))
        simp only [if_pos hu, bind, Except.bind, h, Except.map, conclude_error]
    · refine .inr (.inl ⟨⟨u, by omega, by simp⟩, ?_⟩)
      simp only [if_neg hu, bind, Except.bind, conclude_error]
  | d64End =>
    have hm : s.mode = .d64 := hm
    rw [effect, d64End, runCommand_runs hf hm]
    by_cases hk : (7 * s.icnt.toNat) % 8 = s.p.toNat
    · have hok : lengthMismatch s = false := by simp [lengthMismatch, hk]
      simp only [hok, Bool.false_eq_true, if_false, bind]
      rcases flush_cases c 6 b64Char (drop s.p.toNat s) with ⟨vs, a, l, h⟩ | ⟨hc, h⟩
      · simp only [h, Except.bind, padToFour_eq]
        rcases emitList_cases c (List.replicate (padCount
            (pushSymbols vs (setWindow a l (drop s.p.toNat s))).ocnt.toNat) padChar)
          (pushSymbols vs (setWindow a l (drop s.p.toNat s))) with h' | ⟨hc, h'⟩
        · left
          rw [h', pushSymbols_pushSymbols]
          exact .finish (s := s) _ (by simp)
        · exact .inr (.inr (.inr ⟨by simp, by simp [hk], fun hn => absurd hn hc, by rw [h']; rfl⟩))
      · exact .inr (.inr (.inr ⟨by simp, by simp [hk], fun hn => absurd hn hc, by rw [h]; rfl⟩))
    · have hno : lengthMismatch s = true := by simp [lengthMismatch, hk]
      exact .inr (.inr (.inl ⟨rfl, hk, by simp [hno]⟩))

/-- In the wrong MODE a well-formed command leaves the SequenceError record. -/
theorem effect_wrong_mode (c : Config.Params) (i : Instr) (s : State) (hf : s.fault = .noFault)
    (hm : s.mode ≠ requiredMode i) (hw : i.WellFormed) :
    effect c i s = raise .sequenceError (encode i) s := by
  cases i
  case d64Begin k =>
    have hk : k.toNat ≤ 7 := by simpa [Instr.WellFormed, Instr.wellFormed] using hw
    simp only [effect, d64Begin, if_pos hk, runCommand, hf, if_true]
    rw [if_neg (by exact hm)]
  all_goals
    simp only [effect, encBegin, encByte, encEnd, decbBegin, decbUnit, decbEnd, d64Unit, d64End,
      dbufBegin, dbufUnit, dbufEnd, runCommand, hf, if_true]
    rw [if_neg (by exact hm)]

/-- While FAULT is set a command is ignored (spec/60_exceptions.md R230). -/
theorem effect_ignored (c : Config.Params) (i : Instr) (s : State) (hf : s.fault ≠ .noFault) :
    effect c i s = s := by
  cases i
  case d64Begin k => simp [effect, d64Begin, illegalCommand, runCommand, hf]
  all_goals
    simp only [effect, encBegin, encByte, encEnd, decbBegin, decbUnit, decbEnd, d64Unit, d64End,
      dbufBegin, dbufUnit, dbufEnd, runCommand, hf, if_false]

/-- Everything a command can do, in any state: it is ignored, it leaves a fault record, or it
completes. -/
theorem effect_cases (c : Config.Params) (i : Instr) (s : State) :
    (s.fault ≠ .noFault ∧ effect c i s = s) ∨
    (s.fault = .noFault ∧ ∃ f, f ≠ .noFault ∧ effect c i s = raise f (encode i) s) ∨
    (s.fault = .noFault ∧ s.mode = requiredMode i ∧ i.WellFormed ∧ Completed c i s (effect c i s)) := by
  by_cases hf : s.fault = .noFault
  · by_cases hw : i.WellFormed
    · by_cases hm : s.mode = requiredMode i
      · rcases runs_cases c i s hf hm hw with h | ⟨_, h⟩ | ⟨_, _, h⟩ | ⟨_, _, _, h⟩
        · exact .inr (.inr ⟨hf, hm, hw, h⟩)
        · exact .inr (.inl ⟨hf, _, by simp, h⟩)
        · exact .inr (.inl ⟨hf, _, by simp, h⟩)
        · exact .inr (.inl ⟨hf, _, by simp, h⟩)
      · exact .inr (.inl ⟨hf, _, by simp, effect_wrong_mode c i s hf hm hw⟩)
    · right; left
      refine ⟨hf, .illegalCommand, by simp, ?_⟩
      cases i
      case d64Begin k =>
        have hk : ¬ k.toNat ≤ 7 := by simpa [Instr.WellFormed, Instr.wellFormed] using hw
        simp only [effect, d64Begin, if_neg hk, illegalCommand, hf, if_true]
      all_goals exact absurd rfl hw
  · exact .inl ⟨hf, effect_ignored c i s hf⟩

end Sys2Proof.Machine
end

