-- ==== Sys2Proof/Laws/Decode.lean ====
section
/-! SUPPORT. The fields of a word as arithmetic, and the word of a command
(spec/30_encoding.md R71, R80). -/

namespace Sys2Proof

theorem opField_toNat (w : Word) : (opField w).toNat = w.toNat / 4096 := by
  have := w.isLt
  simp only [opField, BitVec.extractLsb'_toNat, Nat.shiftRight_eq_div_pow]
  omega

theorem auxField_toNat (w : Word) : (auxField w).toNat = w.toNat / 256 % 16 := by
  simp [auxField, BitVec.extractLsb'_toNat, Nat.shiftRight_eq_div_pow]

theorem dataField_toNat (w : Word) : (dataField w).toNat = w.toNat % 256 := by
  simp [dataField, BitVec.extractLsb'_toNat]

/-- A word is its three fields. -/
theorem word_eq_fields (w : Word) :
    w.toNat = (opField w).toNat * 4096 + (auxField w).toNat * 256 + (dataField w).toNat := by
  rw [opField_toNat, auxField_toNat, dataField_toNat]
  omega

/-- The word of a command as a number. -/
theorem encode_toNat (i : Instr) : (encode i).toNat = i.opcode.toNat * 4096 + i.data.toNat := by
  have h1 := i.data.isLt
  have h2 := i.opcode.isLt
  rw [encode, Nat.shiftLeft_eq, Nat.mul_comm, ← Nat.two_pow_add_eq_or_of_lt (by omega : i.data.toNat < 2 ^ 12)]
  simp only [BitVec.toNat_ofNat]
  omega

theorem opField_encode (i : Instr) : opField (encode i) = i.opcode := by
  have := i.data.isLt
  apply BitVec.eq_of_toNat_eq
  rw [opField_toNat, encode_toNat]
  omega

theorem auxField_encode (i : Instr) : auxField (encode i) = 0 := by
  have := i.data.isLt
  apply BitVec.eq_of_toNat_eq
  rw [auxField_toNat, encode_toNat, show (0 : BitVec 4).toNat = 0 from rfl]
  omega

theorem dataField_encode (i : Instr) : dataField (encode i) = i.data := by
  have := i.data.isLt
  apply BitVec.eq_of_toNat_eq
  rw [dataField_toNat, encode_toNat]
  omega

/-- `data[7:3] = 0` says that the residue is in 0..7. -/
theorem high_bits_zero_iff (k : Byte) : k.extractLsb' 3 5 = 0 ↔ k.toNat ≤ 7 := by
  have := k.isLt
  rw [← BitVec.toNat_inj, BitVec.extractLsb'_toNat, Nat.shiftRight_eq_div_pow,
    show (0 : BitVec 5).toNat = 0 from rfl]
  omega

end Sys2Proof
end

