-- ==== Sys2Proof/Laws/PerInstr.lean ====
section
/-! SUPPORT. A statement about every command as syntax, one lemma per constructor: the fields of its
word (spec/30_encoding.md R71, R80). -/

namespace Sys2Proof.Laws.EncodeFields

/-- The word of a command carries its opcode, an `aux` of 0 and its operand, each in its own field. -/
def Statement (i : Instr) : Prop :=
  opField (encode i) = i.opcode ∧ auxField (encode i) = 0 ∧ dataField (encode i) = i.data

theorem of_instr (i : Instr) : Statement i :=
  ⟨opField_encode i, auxField_encode i, dataField_encode i⟩

theorem encBegin : Statement .encBegin := of_instr _
theorem encByte (b : Byte) : Statement (.encByte b) := of_instr _
theorem encEnd : Statement .encEnd := of_instr _
theorem decbBegin : Statement .decbBegin := of_instr _
theorem decbUnit (u : Byte) : Statement (.decbUnit u) := of_instr _
theorem decbEnd : Statement .decbEnd := of_instr _
theorem d64Begin (k : Byte) : Statement (.d64Begin k) := of_instr _
theorem d64Unit (u : Byte) : Statement (.d64Unit u) := of_instr _
theorem d64End : Statement .d64End := of_instr _
theorem dbufBegin : Statement .dbufBegin := of_instr _
theorem dbufUnit (u : Byte) : Statement (.dbufUnit u) := of_instr _
theorem dbufEnd : Statement .dbufEnd := of_instr _

end Sys2Proof.Laws.EncodeFields
end

