-- ==== Sys2Proof/Tests/Slice0.lean ====
section
/-! SUPPORT. Tests of one step each, with results worked out from spec/, and for each statement of
Certificates/Slice0/Obligations.lean with hypotheses a concrete state that meets them. -/

namespace Sys2Proof.Tests

open Sys2Proof Sys2Proof.Machine

/-! ### Decoding: op[15:12] aux[11:8] data[7:0], written out from spec/30_encoding.md R71 and R73 -/

theorem test_decode_enc_begin : decode 0b0001_0000_00000000 = .command .encBegin := by decide
theorem test_decode_enc_byte : decode 0b0010_0000_10100101 = .command (.encByte 0xA5) := by decide
theorem test_decode_enc_end : decode 0b0011_0000_00000000 = .command .encEnd := by decide
theorem test_decode_decb_begin : decode 0b0100_0000_00000000 = .command .decbBegin := by decide
theorem test_decode_decb_unit : decode 0b0101_0000_01000001 = .command (.decbUnit 0x41) := by decide
theorem test_decode_decb_end : decode 0b0110_0000_00000000 = .command .decbEnd := by decide
theorem test_decode_d64_begin : decode 0b0111_0000_00000110 = .command (.d64Begin 6) := by decide
theorem test_decode_d64_unit : decode 0b1000_0000_11111110 = .command (.d64Unit 0xFE) := by decide
theorem test_decode_d64_end : decode 0b1001_0000_00000000 = .command .d64End := by decide
theorem test_decode_dbuf_begin : decode 0b1010_0000_00000000 = .command .dbufBegin := by decide
theorem test_decode_dbuf_unit : decode 0b1011_0000_00100110 = .command (.dbufUnit 0x26) := by decide
theorem test_decode_dbuf_end : decode 0b1100_0000_00000000 = .command .dbufEnd := by decide
theorem test_table_word : decodeTableWord 16 0x507F = some (.decbUnit 0x7F) := by decide

/-- spec/30_encoding.md R76: each case of an illegal word. -/
theorem test_illegal_words :
    decode 0b1101_0000_00000000 = .illegal .reservedOpcode ∧
    decode 0b0010_0001_10100101 = .illegal .nonzeroAux ∧
    decode 0b0110_0000_00000001 = .illegal .nonzeroData ∧
    decode 0b0111_0000_10000110 = .illegal .residueTooWide := by decide

/-- The one check of WellFormed: D64.BEGIN with an operand above 7 is refused, and no word decodes to
it. -/
theorem test_wellformed_refuses_wide_residue :
    ¬ (Instr.d64Begin 8).WellFormed ∧ (Instr.d64Begin 7).WellFormed ∧
    decode (encode (.d64Begin 8)) = .illegal .residueTooWide := by decide

/-! ### Single commands: the vectors of spec/95_test_vectors.md sections 2 to 5 -/

/-- BUF_CAP = 8, OUTQ_CAP unbounded. -/
def wide : Config.Params := ⟨8, none⟩

/-- BUF_CAP = 0, OUTQ_CAP = 1. -/
def narrow : Config.Params := ⟨0, some 1⟩

/-- An open transaction with the window `(acc, len)` and padding count `p`. -/
def opened (m : Mode) (acc : BitVec 19) (len : BitVec 5) (p : BitVec 3) : State :=
  { State.reset with mode := m, acc := acc, len := len, p := p }

/-- The parts of a state that the vectors show. -/
def shown (s : State) : BitVec 19 × BitVec 5 × List Byte × BitVec 3 := (s.acc, s.len, s.outq, s.icnt)

/-- What a fault leaves, beside MODE. -/
def record (s : State) : FaultCode × Word × List Byte × Bool × Mode :=
  (s.fault, s.fcmd, s.outq, s.done, s.mode)

theorem test_enc_begin :
    (encBegin { State.reset with done := true, outq := [1], ocnt := 1 }).mode = .enc ∧
    (encBegin { State.reset with done := true, outq := [1], ocnt := 1 }).outq = [] := by decide

theorem test_enc_byte_one_unit :
    shown (encByte wide 0xC3 (opened .enc 0x15 5 0)) = (0x3, 6, [0x57], 1) := by decide

theorem test_enc_byte_two_units :
    shown (encByte wide 0x55 (opened .enc 0x2A 6 0)) = (0, 0, [0x54, 0x55], 1) := by decide

theorem test_enc_end_pads :
    shown (encEnd wide (opened .enc 0x5 3 0)) = (0, 0, [0x50], 0) ∧
    (encEnd wide (opened .enc 0x5 3 0)).done = true := by decide

/-- spec/95_test_vectors.md section 2.3: output capacity hit at the END. -/
theorem test_enc_end_overflow :
    record (encEnd narrow { opened .enc 1 1 0 with outq := [0], ocnt := 1 }) =
      (.outputOverflow, 0x3000, [], false, .enc) := by decide

theorem test_decb_begin : (decbBegin State.reset).mode = .decb := by decide

theorem test_decb_unit_byte :
    shown (decbUnit wide 0x01 (opened .decb 0x3F 6 0)) = (0x1, 5, [0xFC], 1) := by decide

theorem test_decb_unit_bit_seven :
    record (decbUnit wide 0x80 (opened .decb 0x7F 7 0)) =
      (.invalidInput, 0x5080, [], false, .decb) := by decide

theorem test_decb_end_drops :
    shown (decbEnd (opened .decb 0x5 3 0)) = (0, 0, [], 0) ∧
    (decbEnd (opened .decb 0x5 3 0)).mode = .idle := by decide

theorem test_d64_begin :
    (d64Begin 1 State.reset).p = 7 ∧ (d64Begin 2 State.reset).p = 6 ∧
    (d64Begin 7 State.reset).p = 1 ∧ (d64Begin 0 State.reset).p = 0 := by decide

theorem test_d64_begin_open :
    record (d64Begin 3 (opened .d64 0 0 5)) = (.sequenceError, 0x7003, [], false, .d64) := by decide

/-- LEN reaches 19 (spec/95_test_vectors.md section 4.2). -/
theorem test_d64_unit_two :
    shown (d64Unit wide 0x7F (opened .d64 0xFFF 12 7)) = (0x7F, 7, [0x2F, 0x2F], 1) := by decide

theorem test_d64_unit_one :
    shown (d64Unit wide 0x40 (opened .d64 0 7 6)) = (0x40, 8, [0x41], 1) := by decide

/-- `TWE=` (spec/95_test_vectors.md section 4.3, n = 3). -/
theorem test_d64_end_pads :
    (d64End wide { opened .d64 0x20 9 5 with icnt := 3, ocnt := 2, outq := [0x54, 0x57] }).outq =
      [0x54, 0x57, 0x45, 0x3D] := by decide

/-- The declared length is wrong (spec/95_test_vectors.md section 4.5). -/
theorem test_d64_end_mismatch :
    record (d64End wide { opened .d64 0x40 8 5 with icnt := 2, ocnt := 1, outq := [0x41] }) =
      (.lengthMismatch, 0x9000, [], false, .d64) := by decide

theorem test_dbuf_begin : (dbufBegin State.reset).mode = .dbuf := by decide

theorem test_dbuf_unit_writes :
    (dbufUnit wide 0x40 (opened .dbuf 0 7 0)).bufmem = [(0, 0x01)] ∧
    (dbufUnit wide 0x40 (opened .dbuf 0 7 0)).ocnt = 1 := by decide

theorem test_dbuf_unit_overflow :
    record (dbufUnit narrow 0x7F (opened .dbuf 0x7F 7 0)) =
      (.outputOverflow, 0xB07F, [], false, .dbuf) := by decide

theorem test_dbuf_end_keeps_count :
    (dbufEnd { opened .dbuf 0 6 0 with ocnt := 1 }).ocnt = 1 ∧
    (dbufEnd { opened .dbuf 0 6 0 with ocnt := 1 }).done = true ∧
    (dbufEnd { opened .dbuf 0 6 0 with ocnt := 1 }).bufResult = 1 := by decide

/-- STATUS after the fault of section 4.5 is 0x0053. -/
theorem test_status :
    statusPort { opened .d64 0x40 8 5 with fault := .lengthMismatch } = 0x0053 := by decide

/-- `encode 1` and a comment, in mixed case (spec/30_encoding.md R78, R83). -/
theorem test_assemble :
    assemble ["Encode 0x01 ; S2".toList, "d64.begin 7".toList] =
      .ok [0x1000, 0x2001, 0x3000, 0x7007] := by decide

/-- An operand out of range is refused with its line (spec/30_encoding.md R79). -/
theorem test_assemble_refuses :
    assemble ["enc.begin".toList, "d64.begin 8".toList] = .error (2, .outOfRange) := by decide

/-! ### Witnesses: for each statement with hypotheses, concrete states that meet them together -/

/-- An unbounded OUTQ has room for anything. -/
theorem room_wide (s : State) (k : Nat) : roomFor wide s k := fun _ h => nomatch h

/-- Whatever the machine's parameters are, an empty OUTQ has room for one symbol. -/
theorem room_machine (s : State) (h : s.outq = []) : roomFor Config.params s 1 := fun n _ => by
  have := n.pos
  simp only [h, List.length_nil]
  omega

/-- A bounded OUTQ that is full. -/
def full (m : Mode) (acc : BitVec 19) (len : BitVec 5) (p : BitVec 3) : State :=
  { opened m acc len p with outq := [0x41], ocnt := 1 }

theorem full_room (m : Mode) (acc : BitVec 19) (len : BitVec 5) (p : BitVec 3) :
    roomFor narrow (full m acc len p) 0 := fun n h => by cases h; exact Nat.le_refl 1

theorem full_no_room (m : Mode) (acc : BitVec 19) (len : BitVec 5) (p : BitVec 3) :
    ¬ roomFor narrow (full m acc len p) 1 := fun h => absurd (h 1 rfl) (Nat.not_succ_le_self 1)

/-- A faulted state with pending events. -/
def faulted (events : List HostEvent) : State :=
  { State.reset with fault := .illegalCommand, input := events }

theorem witness_DecodeAndEncodeAreInverse :
    (Instr.d64Begin 7).WellFormed ∧ decode 0x7007 = .command (.d64Begin 7) := by decide

theorem witness_IllegalWordsRaiseIllegalCommand :
    (∃ why, decode 0x7008 = .illegal why) ∧ State.reset.fault = .noFault := ⟨⟨_, rfl⟩, rfl⟩

theorem witness_StepRunsTheDecodedCommand :
    ({ State.reset with input := [.command 0x20FF, .reset] } : State).input = .command 0x20FF :: [.reset] ∧
    decode 0x20FF = .command (.encByte 0xFF) ∧
    ({ State.reset with input := [.command 0x1001] } : State).input = .command 0x1001 :: [] ∧
    decode 0x1001 = .illegal .nonzeroData := by decide

theorem witness_StepIssuesTheWord :
    ({ State.reset with input := [.command 0x1000] } : State).input = .command 0x1000 :: [] := rfl

theorem witness_EveryStepAnswersANextState : State.reset.input = [] := rfl

theorem witness_EveryWordAdvancesThePosition :
    step (faulted [.command 0]) = .next { faulted [] with pos := 1 } ∧
    step (faulted [.reset]) = .next State.reset ∧ step State.reset = .next State.reset :=
  ⟨rfl, rfl, rfl⟩

theorem witness_ResetStepWritesEveryRegister :
    (faulted [.reset]).input = .reset :: [] ∧ step (faulted [.reset]) = .next State.reset ∧
    (faulted [.reset]).fault ≠ .noFault ∧ State.reset.fault = .noFault :=
  ⟨rfl, rfl, by decide, rfl⟩

theorem witness_FaultedBlockIgnoresEveryWord :
    (faulted [.command 0x1000]).input = .command 0x1000 :: [] ∧
    (faulted [.command 0x1000]).fault ≠ .noFault := by decide

theorem witness_HostSeesCommittedOutput :
    ({ State.reset with done := true, outq := [0, 64] } : State).done = true ∧
    ({ State.reset with done := true, outq := [0, 64] } : State).fault = .noFault := by decide

theorem witness_BeginCommandsStartATransaction :
    State.reset.fault = .noFault ∧ State.reset.mode = .idle ∧
    (7 : Byte).toNat ≤ 7 ∧ (0 : Byte).toNat ≤ 7 := by decide

theorem witness_EncByteResult :
    (opened .enc 0x3F 6 0).fault = .noFault ∧ (opened .enc 0x3F 6 0).mode = .enc ∧
    (opened .enc 0x3F 6 0).len.toNat ≤ 6 ∧
    (opened .enc 0x3F 6 0).acc.toNat < 2 ^ (opened .enc 0x3F 6 0).len.toNat ∧
    roomFor wide (opened .enc 0x3F 6 0) (((opened .enc 0x3F 6 0).len.toNat + 8) / 7) ∧
    roomFor Config.params (opened .enc 0x1F 5 0) (((opened .enc 0x1F 5 0).len.toNat + 8) / 7) ∧
    (opened .enc 0x1F 5 0).acc.toNat < 2 ^ (opened .enc 0x1F 5 0).len.toNat :=
  ⟨rfl, rfl, by decide, by decide, room_wide _ _, room_machine _ rfl, by decide⟩

theorem witness_EncEndResult :
    (opened .enc 0x3F 6 0).fault = .noFault ∧ (opened .enc 0x3F 6 0).mode = .enc ∧
    (opened .enc 0x3F 6 0).len.toNat ≤ 6 ∧
    (opened .enc 0x3F 6 0).acc.toNat < 2 ^ (opened .enc 0x3F 6 0).len.toNat ∧
    roomFor Config.params (opened .enc 0x3F 6 0)
      (if (opened .enc 0x3F 6 0).len = 0 then 0 else 1) :=
  ⟨rfl, rfl, by decide, by decide, room_machine _ rfl⟩

theorem witness_DecbUnitResult :
    (opened .decb 0x7F 7 0).fault = .noFault ∧ (opened .decb 0x7F 7 0).mode = .decb ∧
    (opened .decb 0x7F 7 0).len.toNat ≤ 7 ∧
    (opened .decb 0x7F 7 0).acc.toNat < 2 ^ (opened .decb 0x7F 7 0).len.toNat ∧
    (0x7F : Byte).toNat ≤ 127 ∧
    roomFor Config.params (opened .decb 0x7F 7 0)
      (if (opened .decb 0x7F 7 0).len = 0 then 0 else 1) :=
  ⟨rfl, rfl, by decide, by decide, by decide, room_machine _ rfl⟩

theorem witness_DecodeEndsCommit :
    (opened .decb 0x7F 7 0).fault = .noFault ∧ (opened .decb 0x7F 7 0).mode = .decb ∧
    (opened .dbuf 0x7F 7 0).fault = .noFault ∧ (opened .dbuf 0x7F 7 0).mode = .dbuf := by decide

theorem witness_D64UnitResult :
    (opened .d64 0xFFF 12 7).fault = .noFault ∧ (opened .d64 0xFFF 12 7).mode = .d64 ∧
    (opened .d64 0xFFF 12 7).len.toNat ≤ 5 + (opened .d64 0xFFF 12 7).p.toNat ∧
    (opened .d64 0xFFF 12 7).acc.toNat < 2 ^ (opened .d64 0xFFF 12 7).len.toNat ∧
    (0x7F : Byte).toNat ≤ 127 ∧
    roomFor wide (opened .d64 0xFFF 12 7)
      (((opened .d64 0xFFF 12 7).len.toNat + 7 - (opened .d64 0xFFF 12 7).p.toNat) / 6) ∧
    roomFor Config.params (opened .d64 0x7F 7 7)
      (((opened .d64 0x7F 7 7).len.toNat + 7 - (opened .d64 0x7F 7 7).p.toNat) / 6) :=
  ⟨rfl, rfl, by decide, by decide, by decide, room_wide _ _, room_machine _ rfl⟩

/-- Before the last two commands of `decode.base64 0, 64` (spec/95_test_vectors.md section 4.3). -/
def twoUnits : State := { opened .d64 0x40 8 6 with icnt := 2, ocnt := 1, outq := [0x41] }

theorem witness_D64EndResult :
    twoUnits.fault = .noFault ∧ twoUnits.mode = .d64 ∧
    (7 * twoUnits.icnt.toNat) % 8 = twoUnits.p.toNat ∧ twoUnits.p.toNat ≤ twoUnits.len.toNat ∧
    twoUnits.len.toNat ≤ 5 + twoUnits.p.toNat ∧ twoUnits.acc.toNat < 2 ^ twoUnits.len.toNat ∧
    [0x51, 0x3D, 0x3D] = (if twoUnits.len.toNat = twoUnits.p.toNat then []
      else [b64Char (twoUnits.acc.toNat / 2 ^ twoUnits.p.toNat *
        2 ^ (6 - (twoUnits.len.toNat - twoUnits.p.toNat)))]) ++
      List.replicate ((4 - (twoUnits.ocnt.toNat +
        (if twoUnits.len.toNat = twoUnits.p.toNat then 0 else 1)) % 4) % 4) 0x3D ∧
    roomFor wide twoUnits 3 :=
  ⟨rfl, rfl, by decide, by decide, by decide, by decide, by decide, room_wide _ _⟩

/-- On the machine's own parameters: the empty transaction, whose END puts out nothing. -/
theorem witness_D64EndResult_machine :
    (opened .d64 0 0 0).fault = .noFault ∧ (opened .d64 0 0 0).mode = .d64 ∧
    (7 * (opened .d64 0 0 0).icnt.toNat) % 8 = (opened .d64 0 0 0).p.toNat ∧
    (opened .d64 0 0 0).acc.toNat < 2 ^ (opened .d64 0 0 0).len.toNat ∧
    roomFor Config.params (opened .d64 0 0 0) 0 :=
  ⟨rfl, rfl, by decide, by decide, fun n _ => Nat.zero_le _⟩

theorem witness_DbufUnitResult :
    (opened .dbuf 0x7F 7 0).fault = .noFault ∧ (opened .dbuf 0x7F 7 0).mode = .dbuf ∧
    (opened .dbuf 0x7F 7 0).len.toNat ≤ 7 ∧
    (opened .dbuf 0x7F 7 0).acc.toNat < 2 ^ (opened .dbuf 0x7F 7 0).len.toNat ∧
    (0x7F : Byte).toNat ≤ 127 ∧
    (opened .dbuf 0x7F 7 0).len ≠ 0 ∧ (opened .dbuf 0x7F 7 0).ocnt.toNat < (wide.bufCap : Nat) ∧
    ((opened .dbuf 0 0 0).len ≠ 0 →
      (opened .dbuf 0 0 0).ocnt.toNat < (Config.params.bufCap : Nat)) :=
  ⟨rfl, rfl, by decide, by decide, by decide, by decide, by decide, fun h => absurd rfl h⟩

theorem witness_WrongModeRaisesSequenceError :
    (Instr.d64Begin 7).WellFormed ∧ (opened .enc 0 0 0).fault = .noFault ∧
    (opened .enc 0 0 0).mode ≠ .idle ∧ State.reset.fault = .noFault ∧ State.reset.mode ≠ .dbuf := by
  decide

theorem witness_UnitWithBit7RaisesInvalidInput :
    127 < (0x80 : Byte).toNat ∧
    ((opened .decb 0 0 0).fault = .noFault ∧ (opened .decb 0 0 0).mode = .decb) ∧
    ((opened .d64 0 0 0).fault = .noFault ∧ (opened .d64 0 0 0).mode = .d64) ∧
    ((opened .dbuf 0 0 0).fault = .noFault ∧ (opened .dbuf 0 0 0).mode = .dbuf) ∧
    (effect wide (.d64Unit 0xFF) (opened .d64 0 0 0)).fault = .invalidInput := by decide

theorem witness_WrongLengthRaisesLengthMismatch :
    (opened .d64 0 0 7).fault = .noFault ∧ (opened .d64 0 0 7).mode = .d64 ∧
    (7 * (opened .d64 0 0 7).icnt.toNat) % 8 ≠ (opened .d64 0 0 7).p.toNat := by decide

/-- One full OUTQ for each clause, and a full BUFMEM. -/
theorem witness_FullOutputRaisesOutputOverflow :
    (roomFor narrow (full .enc 0x1F 5 0) 0 ∧
      ¬ roomFor narrow (full .enc 0x1F 5 0) (((full .enc 0x1F 5 0).len.toNat + 8) / 7)) ∧
    (0 < (full .enc 0x3F 6 0).len.toNat ∧ ¬ roomFor narrow (full .enc 0x3F 6 0) 1) ∧
    (0 < (full .decb 0x7F 7 0).len.toNat ∧ ¬ roomFor narrow (full .decb 0x7F 7 0) 1) ∧
    ((full .d64 0x7F 7 7).len.toNat ≤ 5 + (full .d64 0x7F 7 7).p.toNat ∧
      ¬ roomFor narrow (full .d64 0x7F 7 7)
        (((full .d64 0x7F 7 7).len.toNat + 7 - (full .d64 0x7F 7 7).p.toNat) / 6)) ∧
    ((opened .dbuf 1 1 0).len.toNat ≤ 7 ∧ (narrow.bufCap : Nat) ≤ (opened .dbuf 1 1 0).ocnt.toNat) ∧
    (Config.Params.outqCap ⟨0, none⟩ = none ∧
      (effect ⟨0, none⟩ (.dbufUnit 0) (opened .dbuf 1 1 0)).fault = .outputOverflow) :=
  ⟨⟨full_room _ _ _ _, full_no_room _ _ _ _⟩, ⟨by decide, full_no_room _ _ _ _⟩,
    ⟨by decide, full_no_room _ _ _ _⟩, ⟨by decide, full_no_room _ _ _ _⟩, by decide, by decide⟩

/-- The same states are open transactions without a fault whose window is within LEN. -/
theorem witness_FullOutputRaisesOutputOverflow_windows :
    ((full .enc 0x1F 5 0).fault = .noFault ∧ (full .enc 0x1F 5 0).mode = .enc ∧
      (full .enc 0x1F 5 0).acc.toNat < 2 ^ (full .enc 0x1F 5 0).len.toNat) ∧
    ((full .enc 0x3F 6 0).acc.toNat < 2 ^ (full .enc 0x3F 6 0).len.toNat) ∧
    ((full .decb 0x7F 7 0).mode = .decb ∧
      (full .decb 0x7F 7 0).acc.toNat < 2 ^ (full .decb 0x7F 7 0).len.toNat) ∧
    ((full .d64 0x7F 7 7).mode = .d64 ∧
      (full .d64 0x7F 7 7).acc.toNat < 2 ^ (full .d64 0x7F 7 7).len.toNat) ∧
    ((opened .dbuf 1 1 0).mode = .dbuf ∧
      (opened .dbuf 1 1 0).acc.toNat < 2 ^ (opened .dbuf 1 1 0).len.toNat ∧
      (0x7F : Byte).toNat ≤ 127) := by decide

/-- The clause of D64.END, at the state of two units with an OUTQ of one symbol. -/
theorem witness_FullOutputRaisesOutputOverflow_d64End :
    twoUnits.fault = .noFault ∧ twoUnits.mode = .d64 ∧ roomFor narrow twoUnits 0 ∧
    (7 * twoUnits.icnt.toNat) % 8 = twoUnits.p.toNat ∧ twoUnits.p.toNat < twoUnits.len.toNat ∧
    ¬ roomFor narrow twoUnits (1 + (4 - (twoUnits.ocnt.toNat + 1) % 4) % 4) :=
  ⟨rfl, rfl, fun n h => by cases h; decide, by decide, by decide,
    fun h => absurd (h 1 rfl) (by decide)⟩

theorem witness_FaultsFollowThePriority :
    (faulted []).fault ≠ .noFault ∧ State.reset.fault = .noFault ∧
    decode 0 = .illegal .reservedOpcode ∧
    (decode 0x3000 = .command .encEnd ∧ State.reset.mode ≠ requiredMode .encEnd) ∧
    (decode 0x5080 = .command (.decbUnit 0x80) ∧
      (opened .decb 0 0 0).mode = requiredMode (.decbUnit 0x80) ∧ 127 < (0x80 : Byte).toNat) ∧
    (decode 0x9000 = .command .d64End ∧ (opened .d64 0 0 7).mode = requiredMode .d64End ∧
      (7 * (opened .d64 0 0 7).icnt.toNat) % 8 ≠ (opened .d64 0 0 7).p.toNat) := by decide

theorem witness_FaultLeavesOnlyItsRecord :
    State.reset.fault = .noFault ∧ (issue wide 0 State.reset).fault ≠ .noFault ∧
    0 < (wide.bufCap : Nat) := by decide

theorem witness_OnlyDbufUnitWritesBufmem :
    exec .encBegin State.reset = .next (encBegin State.reset) ∧ ∀ u, Instr.encBegin ≠ .dbufUnit u :=
  ⟨rfl, by simp⟩

theorem witness_DbufUnitStoresOnlyAtOcnt :
    exec (.dbufUnit 0) (opened .dbuf 0 7 0) =
      .next (dbufUnit Config.params 0 (opened .dbuf 0 7 0)) ∧
    1 ≠ (opened .dbuf 0 7 0).ocnt.toNat :=
  ⟨rfl, by decide⟩

theorem witness_ElementCommandsKeepTheRest :
    exec (.decbUnit 0x7F) (opened .decb 0 0 0) =
      .next { opened .decb 0x7F 7 0 with icnt := 1 } ∧
    (opened .decb 0x7F 7 0).fault = (opened .decb 0 0 0).fault :=
  ⟨rfl, rfl⟩

theorem witness_EndCommandsKeepTheRest :
    exec .dbufEnd (opened .dbuf 0x7F 7 0) = .next { State.reset with done := true } ∧
    Instr.dbufEnd ∈ [Instr.encEnd, .decbEnd, .d64End, .dbufEnd] :=
  ⟨rfl, by decide⟩

/-- The window bounds are reached in states with the invariant: IDLE after reset. -/
theorem inv_reset : Inv wide State.reset where
  accBelow := by decide
  modeBounds := ⟨rfl, rfl⟩
  outputBounds := fun _ => trivial
  outqFits := room_wide _ _
  doneIdle := by decide
  noFaultNoRecord := fun _ => rfl
  faultWithdraws := fun h => absurd rfl h
  bufmemWf := rfl
  bufmemInside := fun i h => by simp [State.reset] at h
  resultStored := ⟨by decide, fun i h => absurd h (Nat.not_lt_zero i)⟩
  openWithdraws := fun h => nomatch h

/-- ENC with LEN = 6: after six bytes 0xFF. -/
theorem inv_enc :
    Inv wide { opened .enc 0x3F 6 0 with ocnt := 6, icnt := 6, outq := List.replicate 6 0x7F } where
  accBelow := by decide
  modeBounds := ⟨by decide, by decide, by decide⟩
  outputBounds := fun _ => ⟨by decide, by decide⟩
  outqFits := room_wide _ _
  doneIdle := by decide
  noFaultNoRecord := fun _ => rfl
  faultWithdraws := fun h => absurd rfl h
  bufmemWf := rfl
  bufmemInside := fun i h => by simp [opened, State.reset] at h
  resultStored := ⟨by decide, fun i h => absurd h (Nat.not_lt_zero i)⟩
  openWithdraws := fun h => nomatch h

/-- DECB with LEN = 7: after one unit. -/
theorem inv_decb : Inv wide { opened .decb 0x7F 7 0 with icnt := 1 } where
  accBelow := by decide
  modeBounds := ⟨by decide, by decide, by decide⟩
  outputBounds := fun _ => rfl
  outqFits := room_wide _ _
  doneIdle := by decide
  noFaultNoRecord := fun _ => rfl
  faultWithdraws := fun h => absurd rfl h
  bufmemWf := rfl
  bufmemInside := fun i h => by simp [opened, State.reset] at h
  resultStored := ⟨by decide, fun i h => absurd h (Nat.not_lt_zero i)⟩
  openWithdraws := fun h => nomatch h

/-- DBUF with LEN = 6 and one byte written: after two units. -/
theorem inv_dbuf :
    Inv wide { opened .dbuf 0 6 0 with icnt := 2, ocnt := 1, bufmem := [(0, 1)] } where
  accBelow := by decide
  modeBounds := ⟨by decide, by decide, by decide⟩
  outputBounds := fun _ => ⟨rfl, by decide, by decide⟩
  outqFits := room_wide _ _
  doneIdle := by decide
  noFaultNoRecord := fun _ => rfl
  faultWithdraws := fun h => absurd rfl h
  bufmemWf := rfl
  bufmemInside := fun i h => by
    by_cases h0 : i = 0
    · subst h0; decide
    · simp [Memory.read, Ne.symm h0] at h
  resultStored := ⟨by decide, fun i h => absurd h (Nat.not_lt_zero i)⟩
  openWithdraws := fun _ => rfl

/-- A committed DBUF result of one byte: after two units and DBUF.END. -/
theorem inv_committed :
    Inv wide { State.reset with done := true, ocnt := 1, icnt := 2, bufmem := [(0, 1)], bufResult := 1 } where
  accBelow := by decide
  modeBounds := ⟨rfl, rfl⟩
  outputBounds := fun _ => trivial
  outqFits := room_wide _ _
  doneIdle := fun _ => ⟨rfl, rfl⟩
  noFaultNoRecord := fun _ => rfl
  faultWithdraws := fun h => absurd rfl h
  bufmemWf := rfl
  bufmemInside := inv_dbuf.bufmemInside
  resultStored := ⟨by decide, by decide⟩
  openWithdraws := fun h => nomatch h

/-- D64 with LEN = 12 = 5 + P: after six units with P = 7, five characters out. -/
theorem inv_d64 :
    Inv wide { opened .d64 0xFFF 12 7 with icnt := 6, ocnt := 5, outq := List.replicate 5 0x2F } where
  accBelow := by decide
  modeBounds := ⟨by decide, by decide, by decide⟩
  outputBounds := fun _ => ⟨by decide, fun v hv =>
    ⟨63, by decide, (List.eq_of_mem_replicate hv).trans (by decide)⟩⟩
  outqFits := room_wide _ _
  doneIdle := by decide
  noFaultNoRecord := fun _ => rfl
  faultWithdraws := fun h => absurd rfl h
  bufmemWf := rfl
  bufmemInside := fun i h => by simp [opened, State.reset] at h
  resultStored := ⟨by decide, fun i h => absurd h (Nat.not_lt_zero i)⟩
  openWithdraws := fun h => nomatch h

/-- D64 before an END that passes its check: two units. -/
theorem inv_two_units : Inv wide twoUnits where
  accBelow := by decide
  modeBounds := ⟨by decide, by decide, by decide⟩
  outputBounds := fun _ => ⟨by decide, fun v hv =>
    ⟨0, by decide, (List.eq_of_mem_singleton hv).trans (by decide)⟩⟩
  outqFits := room_wide _ _
  doneIdle := by decide
  noFaultNoRecord := fun _ => rfl
  faultWithdraws := fun h => absurd rfl h
  bufmemWf := rfl
  bufmemInside := fun i h => by simp [twoUnits, opened, State.reset] at h
  resultStored := ⟨by decide, fun i h => absurd h (Nat.not_lt_zero i)⟩
  openWithdraws := fun h => nomatch h

/-- The invariant over the machine's own parameters, and a step from such a state. -/
theorem witness_StepKeepsTheInvariant :
    Inv Config.params { State.reset with input := [.command 0xA000] } ∧
    step { State.reset with input := [.command 0xA000] } =
      .next { State.reset with mode := .dbuf, pos := 1 } :=
  ⟨⟨by decide, ⟨rfl, rfl⟩, fun _ => trivial, fun n _ => Nat.zero_le _, by decide, fun _ => rfl,
    fun h => absurd rfl h, rfl, fun i h => by simp [State.reset] at h,
    ⟨Nat.zero_le _, fun i h => absurd h (Nat.not_lt_zero i)⟩, fun h => nomatch h⟩, rfl⟩

theorem witness_RunsKeepTheInvariant : ∃ s, Inv wide s ∧ s.mode = .dbuf := ⟨_, inv_dbuf, rfl⟩

theorem witness_WindowBoundsByMode :
    (∃ s, Inv wide s ∧ s.mode = .idle) ∧
    (∃ s, Inv wide s ∧ s.mode = .enc ∧ s.len.toNat = 6) ∧
    (∃ s, Inv wide s ∧ s.mode = .decb ∧ s.len.toNat = 7) ∧
    (∃ s, Inv wide s ∧ s.mode = .d64 ∧ s.p.toNat = 7 ∧ s.len.toNat = 12) ∧
    (0x7F : Byte).toNat ≤ 127 :=
  ⟨⟨_, inv_reset, rfl⟩, ⟨_, inv_enc, rfl, by decide⟩, ⟨_, inv_decb, rfl, by decide⟩,
    ⟨_, inv_d64, rfl, by decide, by decide⟩, by decide⟩

theorem witness_D64EndNeverPadsThree :
    Inv wide twoUnits ∧ twoUnits.mode = .d64 ∧
    (7 * twoUnits.icnt.toNat) % 8 = twoUnits.p.toNat :=
  ⟨inv_two_units, rfl, by decide⟩

theorem witness_WindowLengthFollowsTheCount :
    State.reset.fault = .noFault ∧ State.reset.mode = .idle ∧
    (runWords wide (encode .encBegin :: [0xFF].map (fun b => encode (.encByte b))) State.reset).fault
      = .noFault ∧
    (runWords wide (encode .decbBegin :: [0x7F].map (fun u => encode (.decbUnit u))) State.reset).fault
      = .noFault ∧
    (runWords wide (encode .dbufBegin :: [0x7F].map (fun u => encode (.dbufUnit u))) State.reset).fault
      = .noFault := by decide

/-- A capacity that is exactly enough, and one too small. -/
theorem witness_EncodeTransactionComputesEncodeRef :
    State.reset.mode = .idle ∧ State.reset.fault = .noFault ∧
    (∀ n, Config.Params.outqCap ⟨0, some 2⟩ = some n → (8 * [(1 : Byte)].length + 6) / 7 ≤ (n : Nat)) ∧
    (∃ n, narrow.outqCap = some n ∧ (n : Nat) < (8 * [(1 : Byte)].length + 6) / 7) :=
  ⟨rfl, rfl, fun n h => by cases h; decide, 1, rfl, by decide⟩

theorem witness_DecodeBytesTransactionComputesDecodeRef :
    State.reset.mode = .idle ∧ State.reset.fault = .noFault ∧
    (∀ u ∈ [(0x7F : Byte), 0x7F, 0x7F], u.toNat ≤ 127) ∧
    (∀ n, Config.Params.outqCap ⟨0, some 2⟩ = some n →
      7 * [(0x7F : Byte), 0x7F, 0x7F].length / 8 ≤ (n : Nat)) ∧
    (∃ n, narrow.outqCap = some n ∧ (n : Nat) < 7 * [(0x7F : Byte), 0x7F, 0x7F].length / 8) :=
  ⟨rfl, rfl, by decide, fun n h => by cases h; decide, 1, rfl, by decide⟩

theorem witness_DecodeBase64TransactionComputesDecode64Ref :
    State.reset.mode = .idle ∧ State.reset.fault = .noFault ∧
    (∀ u ∈ [(0 : Byte), 0x40], u.toNat ≤ 127) ∧
    (∀ n, Config.Params.outqCap ⟨0, some 4⟩ = some n →
      4 * ((7 * [(0 : Byte), 0x40].length / 8 + 2) / 3) ≤ (n : Nat)) ∧
    (∃ n, narrow.outqCap = some n ∧ (n : Nat) < 4 * ((7 * [(0 : Byte), 0x40].length / 8 + 2) / 3)) :=
  ⟨rfl, rfl, by decide, fun n h => by cases h; decide, 1, rfl, by decide⟩

theorem witness_DecodeBufferTransactionFillsTheBuffer :
    State.reset.mode = .idle ∧ State.reset.fault = .noFault ∧
    (∀ u ∈ [(0x7F : Byte), 0x7F], u.toNat ≤ 127) ∧
    7 * [(0x7F : Byte), 0x7F].length / 8 ≤ ((⟨1, none⟩ : Config.Params).bufCap : Nat) ∧
    (narrow.bufCap : Nat) < 7 * [(0x7F : Byte), 0x7F].length / 8 := by decide

/-- A committed result of one byte, then `encode` of an empty list and an open decode transaction. -/
theorem witness_BufferResultStaysUntilDbufBegin :
    Inv wide { State.reset with done := true, ocnt := 1, icnt := 2, bufmem := [(0, 1)], bufResult := 1 } ∧
    State.reset.mode ≠ .dbuf ∧ 0 < 1 ∧ encode .dbufBegin ∉ [0x1000#16, 0x3000#16, 0x4000#16] ∧
    (runWords wide [0x1000, 0x3000, 0x4000] { State.reset with
      done := true, ocnt := 1, icnt := 2, bufmem := [(0, 1)], bufResult := 1 }).fault = .noFault :=
  ⟨inv_committed, by decide, by decide, by decide, by decide⟩

theorem witness_AnyUnitWithBit7EndsInInvalidInput :
    State.reset.mode = .idle ∧ State.reset.fault = .noFault ∧
    ∃ u ∈ [(0 : Byte), 0, 0, 0x80], 127 < u.toNat := by decide

theorem witness_FirstUnitWithBit7IsRecorded :
    State.reset.mode = .idle ∧ State.reset.fault = .noFault ∧
    (∀ v ∈ [(0 : Byte), 0x7F], v.toNat ≤ 127) ∧ 127 < (0x80 : Byte).toNat ∧
    (∀ n, narrow.outqCap = some n → 7 * [(0 : Byte), 0x7F].length / 8 ≤ (n : Nat)) :=
  ⟨rfl, rfl, by decide, by decide, fun n h => by cases h; decide⟩

theorem witness_DecodeRefInvertsEncodeRef : ∀ b ∈ [0, 255], b ≤ 255 := by decide

theorem witness_Decode64RefIsStandardBase64 :
    (∀ u ∈ [0, 127], u ≤ 127) ∧ (∀ b ∈ [0, 255], b ≤ 255) := by decide

theorem witness_EncodeIsMsbFirst :
    (∀ b ∈ [0x80], b ≤ 255) ∧ 13 < 7 * (encodeRef [0x80]).length := by decide

theorem witness_DecodeIsMsbFirst :
    (∀ u ∈ [0x41, 0], u ≤ 127) ∧ 7 < 8 * (decodeRef [0x41, 0]).length := by decide

theorem witness_MachineRoundTrip :
    State.reset.mode = .idle ∧ State.reset.fault = .noFault ∧
    (∀ n, Config.Params.outqCap ⟨0, some 2⟩ = some n → (8 * [(1 : Byte)].length + 6) / 7 ≤ (n : Nat)) ∧
    (runWords ⟨0, some 2⟩ (encodeWords [1]) State.reset).outq = [0, 64] :=
  ⟨rfl, rfl, fun n h => by cases h; decide, by decide⟩

theorem witness_BufferAndStreamAgree :
    State.reset.mode = .idle ∧ State.reset.fault = .noFault ∧
    (∀ u ∈ [(0x7F : Byte), 0x7F], u.toNat ≤ 127) ∧
    7 * [(0x7F : Byte), 0x7F].length / 8 ≤ ((⟨1, some 1⟩ : Config.Params).bufCap : Nat) ∧
    (∀ n, Config.Params.outqCap ⟨1, some 1⟩ = some n →
      7 * [(0x7F : Byte), 0x7F].length / 8 ≤ (n : Nat)) :=
  ⟨rfl, rfl, by decide, by decide, fun n h => by cases h; decide⟩

theorem witness_AssemblerProducesNoIllegalWord :
    assemble ["decb.unit 255".toList] = .ok [0x50FF] ∧ (0x50FF : Word) ∈ [(0x50FF : Word)] := by decide

end Sys2Proof.Tests
end

/-! ### One step, and one command word, inverted -/

namespace Sys2Proof.Machine

/-- The machine's meaning of a command word is `issue` for the machine's own parameters. -/
theorem runWord_eq_issue (w : Word) (s : State) :
    runWord w s = .next (issue Config.params w s) := by
  unfold runWord issue
  cases decode w with
  | illegal why => rfl
  | command i => exact exec_eq_effect i s

/-- Everything a step can do: nothing is pending, a reset pulse is taken, or a command word is issued
(spec/70_reset_and_hazards.md R267). -/
theorem step_cases {s t : State} (h : step s = .next t) :
    (s.input = [] ∧ t = s) ∨
    (∃ rest, s.input = .reset :: rest ∧ t = resetCodec { s with input := rest }) ∨
    (∃ w rest, s.input = .command w :: rest ∧ t = issue Config.params w (takeWord rest s)) := by
  unfold step takeEvent at h
  split at h
  next hin => exact .inl ⟨hin, by cases h; rfl⟩
  next rest hin => exact .inr (.inl ⟨rest, hin, by cases h; rfl⟩)
  next w rest hin =>
    rw [runWord_eq_issue] at h
    exact .inr (.inr ⟨w, rest, hin, by cases h; rfl⟩)

/-- Everything a command word can do in any state: it is ignored, it leaves a fault record, or its
command completes. -/
theorem issue_cases (c : Config.Params) (w : Word) (s : State) :
    (s.fault ≠ .noFault ∧ issue c w s = s) ∨
    (s.fault = .noFault ∧ ∃ f v, f ≠ .noFault ∧ issue c w s = raise f v s) ∨
    (∃ i, decode w = .command i ∧ s.fault = .noFault ∧ s.mode = requiredMode i ∧
      Completed c i s (issue c w s)) := by
  unfold issue
  cases hd : decode w with
  | illegal why =>
    rcases illegalCommand_cases w s with h | ⟨hf, h⟩
    · exact .inl h
    · exact .inr (.inl ⟨hf, _, _, by simp, h⟩)
  | command i =>
    rcases effect_cases c i s with h | ⟨hf, f, hne, h⟩ | ⟨hf, hm, _, h⟩
    · exact .inl h
    · exact .inr (.inl ⟨hf, f, _, hne, h⟩)
    · exact .inr (.inr ⟨i, rfl, hf, hm, h⟩)

/-! ### What a command leaves unchanged -/

/-- No command touches the command port or the position (spec/10_state.md R37). -/
theorem Completed.port {c : Config.Params} {i : Instr} {s t : State} (h : Completed c i s t) :
    t.input = s.input ∧ t.pos = s.pos := by
  cases h <;> exact ⟨rfl, rfl⟩

theorem issue_port (c : Config.Params) (w : Word) (s : State) :
    (issue c w s).input = s.input ∧ (issue c w s).pos = s.pos := by
  rcases issue_cases c w s with ⟨_, h⟩ | ⟨_, f, v, _, h⟩ | ⟨i, _, _, _, h⟩
  · simp [h]
  · simp [h]
  · exact h.port

/-- A command other than DBUF.UNIT that completes leaves BUFMEM (spec/10_state.md R34). -/
theorem Completed.bufmem_eq {c : Config.Params} {i : Instr} {s t : State} (h : Completed c i s t)
    (hi : ∀ u, i ≠ .dbufUnit u) : t.bufmem = s.bufmem := by
  cases h with
  | keep u => exact absurd rfl (hi u)
  | write u => exact absurd rfl (hi u)
  | _ => rfl

theorem effect_bufmem {c : Config.Params} {i : Instr} (s : State) (hi : ∀ u, i ≠ .dbufUnit u) :
    (effect c i s).bufmem = s.bufmem := by
  rcases effect_cases c i s with ⟨_, h⟩ | ⟨_, f, _, h⟩ | ⟨_, _, _, h⟩
  · rw [h]
  · rw [h, raise_bufmem]
  · exact h.bufmem_eq hi

/-- ENC.BYTE, DECB.UNIT, D64.UNIT and DBUF.UNIT. -/
def IsElement (i : Instr) : Prop :=
  (∃ v, i = .encByte v) ∨ (∃ v, i = .decbUnit v) ∨ (∃ v, i = .d64Unit v) ∨ (∃ v, i = .dbufUnit v)

/-- What an element command does to the output: a list of symbols is appended and counted, or, for
DBUF.UNIT, nothing is appended. -/
def OutputGrows (i : Instr) (s t : State) : Prop :=
  ∃ vs, t.outq = s.outq ++ vs ∧ ((∃ v, i = .dbufUnit v) → vs = []) ∧
    ((∀ v, i ≠ .dbufUnit v) → t.ocnt = s.ocnt + BitVec.ofNat 32 vs.length)

theorem OutputGrows.refl (i : Instr) (s : State) : OutputGrows i s s := ⟨[], by simp⟩

/-- What an element command keeps in every state: MODE, P and the model's own fields. -/
def KeepsTransaction (s t : State) : Prop :=
  t.mode = s.mode ∧ t.p = s.p ∧ t.input = s.input ∧ t.pos = s.pos ∧ t.bufResult = s.bufResult

/-- An element command that completes is an emission, a window change or a write to BUFMEM; each keeps
the transaction, DONE and FCMD, and OUTQ only grows. -/
theorem Completed.element_frame {c : Config.Params} {i : Instr} {s t : State}
    (h : Completed c i s t) (hi : IsElement i) :
    KeepsTransaction s t ∧ t.done = s.done ∧ t.fcmd = s.fcmd ∧ OutputGrows i s t := by
  cases h with
  | element vs _ _ h =>
    have hne : ∀ v, i ≠ .dbufUnit v := by rcases h with ⟨b, rfl⟩ | ⟨u, rfl⟩ | ⟨u, rfl⟩ <;> simp
    exact ⟨⟨rfl, rfl, rfl, rfl, rfl⟩, rfl, rfl, vs, rfl, fun ⟨v, hv⟩ => absurd hv (hne v),
      fun _ => rfl⟩
  | keep | write => exact ⟨⟨rfl, rfl, rfl, rfl, rfl⟩, rfl, rfl, [], by simp⟩
  | start _ _ h => rcases h with rfl | rfl | ⟨k, rfl⟩ <;> simp [IsElement] at hi
  | finish _ h => rcases h with (rfl | rfl) | ⟨rfl, _⟩ <;> simp [IsElement] at hi
  | startBuf | finishBuf => simp [IsElement] at hi

/-- An element command in any state: only a new fault record touches DONE, FCMD or withdraws OUTQ. -/
theorem effect_element_frame (c : Config.Params) {i : Instr} (s : State) (hi : IsElement i) :
    KeepsTransaction s (effect c i s) ∧
    ((effect c i s).fault = s.fault → (effect c i s).done = s.done ∧
      (effect c i s).fcmd = s.fcmd ∧ OutputGrows i s (effect c i s)) := by
  rcases effect_cases c i s with ⟨_, h⟩ | ⟨hs, f, hne, h⟩ | ⟨_, _, _, h⟩
  · rw [h]
    exact ⟨⟨rfl, rfl, rfl, rfl, rfl⟩, fun _ => ⟨rfl, rfl, .refl i s⟩⟩
  · rw [h]
    exact ⟨⟨rfl, rfl, rfl, rfl, rfl⟩, fun hf => absurd (hf.trans hs) hne⟩
  · obtain ⟨hkeeps, hout⟩ := h.element_frame hi
    exact ⟨hkeeps, fun _ => hout⟩

/-- Settles O8: the step's inversion, and no command moves the port or the position. -/
theorem everyWordAdvancesThePosition : Obligations.EveryWordAdvancesThePosition := by
  intro s t h
  rcases step_cases h with ⟨hin, rfl⟩ | ⟨rest, hin, rfl⟩ | ⟨w, rest, hin, rfl⟩
  · simp [hin]
  · simp [hin]
  · obtain ⟨hinput, hpos⟩ := issue_port Config.params w (takeWord rest s)
    simp [hin, hinput, hpos]

/-- Settles O28: a command is ignored, leaves a fault record, or completes, and of the completions only
DBUF.UNIT's write changes BUFMEM. -/
theorem onlyDbufUnitWritesBufmem : Obligations.OnlyDbufUnitWritesBufmem := by
  intro i s t h hi a
  rw [exec_eq_effect] at h
  cases h
  rw [effect_bufmem s hi]

/-- Settles O30, by the frame of an element command that is ignored, faults or completes. -/
theorem elementCommandsKeepTheRest : Obligations.ElementCommandsKeepTheRest := by
  intro i s t h hi
  rw [exec_eq_effect] at h
  cases h
  obtain ⟨⟨hmode, hp, hinput, hpos, hres⟩, hout⟩ := effect_element_frame Config.params s hi
  exact ⟨hmode, hp, hinput, hpos, hres, hout⟩

/-! ### A committed DBUF result -/

theorem withoutOperand_eq_command {i j : Instr} {data : Byte}
    (h : withoutOperand j data = .command i) : i = j ∧ data = 0 := by
  unfold withoutOperand at h
  split at h
  next hd => exact ⟨by cases h; rfl, hd⟩
  next => cases h

/-- A command is decoded from its own opcode and its own `data` field (spec/30_encoding.md R73). -/
theorem decodeOp_eq_command {op : BitVec 4} {data : Byte} {i : Instr}
    (h : decodeOp op data = .command i) : op = i.opcode ∧ data = i.data := by
  unfold decodeOp at h
  split at h
  case h_1 hop | h_3 hop | h_4 hop | h_6 hop | h_9 hop | h_10 hop | h_12 hop =>
    obtain ⟨rfl, hd⟩ := withoutOperand_eq_command h
    exact ⟨BitVec.eq_of_toNat_eq hop, hd⟩
  case h_2 hop | h_5 hop | h_8 hop | h_11 hop =>
    cases h
    exact ⟨BitVec.eq_of_toNat_eq hop, rfl⟩
  case h_7 hop =>
    split at h
    next =>
      cases h
      exact ⟨BitVec.eq_of_toNat_eq hop, rfl⟩
    next => cases h
  case h_13 => cases h

/-- A word that decodes is the word of its command (spec/30_encoding.md R74, R80). -/
theorem eq_encode_of_decode {w : Word} {i : Instr} (h : decode w = .command i) : w = encode i := by
  unfold decode at h
  split at h
  next haux =>
    obtain ⟨hop, hdata⟩ := decodeOp_eq_command h
    apply BitVec.eq_of_toNat_eq
    rw [word_eq_fields w, encode_toNat, hop, haux, hdata]
    simp
  next => cases h

/-- What a DBUF result needs to stay readable from `s` to `t`: `t` has no DBUF transaction open, and
its BUFMEM and its count of result bytes are those of `s`. -/
def KeepsResult (s t : State) : Prop :=
  t.mode ≠ .dbuf ∧ t.bufmem = s.bufmem ∧ t.bufResult = s.bufResult

/-- A word other than DBUF.BEGIN's, outside a DBUF transaction, keeps the last DBUF result. -/
theorem issue_keepsResult (c : Config.Params) {w : Word} {s : State} (hm : s.mode ≠ .dbuf)
    (hw : w ≠ encode .dbufBegin) : KeepsResult s (issue c w s) := by
  rcases issue_cases c w s with ⟨_, h⟩ | ⟨_, f, v, _, h⟩ | ⟨i, hd, _, hreq, h⟩
  · rw [h]; exact ⟨hm, rfl, rfl⟩
  · rw [h]; exact ⟨hm, rfl, rfl⟩
  · generalize issue c w s = t at h
    cases h with
    | start m _ _ hne => exact ⟨hne.2, rfl, rfl⟩
    | startBuf => exact absurd (eq_encode_of_decode hd) hw
    | element => exact ⟨hm, rfl, rfl⟩
    | finish => exact ⟨by simp, rfl, rfl⟩
    | keep | write | finishBuf => exact absurd hreq hm

theorem runWords_keepsResult (c : Config.Params) {words : List Word} {s : State} (hm : s.mode ≠ .dbuf)
    (hw : encode .dbufBegin ∉ words) : KeepsResult s (runWords c words s) := by
  induction words generalizing s with
  | nil => exact ⟨hm, rfl, rfl⟩
  | cons w words ih =>
    obtain ⟨hne, hrest⟩ : encode .dbufBegin ≠ w ∧ encode .dbufBegin ∉ words := by simpa using hw
    obtain ⟨hmode, hmem, hres⟩ := issue_keepsResult c (s := countWord s) hm hne.symm
    obtain ⟨hmode', hmem', hres'⟩ := ih hmode hrest
    exact ⟨hmode', hmem'.trans hmem, hres'.trans hres⟩

/-- The host reads a byte of the result as stored, at an index BUFMEM has. -/
theorem hostBuf_result {c : Config.Params} {s : State} {i : Nat} (hf : s.fault = .noFault)
    (hi : i < s.bufResult) (hcap : i < (c.bufCap : Nat)) (hsome : (s.bufmem.read i).isSome) :
    hostBuf c s i = s.bufmem.read i := by
  obtain ⟨v, hv⟩ := Option.isSome_iff_exists.1 hsome
  simp [hostBuf, bufCommitted, hf, hi, hcap, hv]

/-- Settles O53: the words leave BUFMEM and the count of result bytes, by induction on the list. -/
theorem bufferResultStaysUntilDbufBegin : Obligations.BufferResultStaysUntilDbufBegin := by
  intro c s words i hinv hm hi hw hf
  obtain ⟨hcap, hstored⟩ := hinv.resultStored
  obtain ⟨_, hmem, hres⟩ := runWords_keepsResult c hm hw
  have hsome := hstored i hi
  refine ⟨hsome, ?_⟩
  rw [← hmem] at hsome ⊢
  exact hostBuf_result hf (hres ▸ hi) (by omega) hsome

/-! ### Reset values and read ports -/

/-- Settles O11: `State.reset` is R41's table. -/
theorem resetValues : Obligations.ResetValues := by
  unfold Obligations.ResetValues
  exact ⟨rfl, rfl, rfl, rfl, rfl, rfl, rfl, rfl, rfl, rfl⟩

/-- STATUS as a number: its three fields at their places (spec/10_state.md R35). -/
theorem statusPort_toNat (s : State) :
    (statusPort s).toNat =
      (faultCode s.fault).toNat * 16 + s.done.toNat * 8 + (modeCode s.mode).toNat := by
  have hm := (modeCode s.mode).isLt
  have hd := (BitVec.ofBool s.done).isLt
  simp only [statusPort, BitVec.toNat_append]
  rw [← Nat.shiftLeft_add_eq_or_of_lt hm, ← Nat.shiftLeft_add_eq_or_of_lt hd]
  simp [Nat.shiftLeft_eq]
  omega

/-- Settles O12: each field of STATUS from its place in the number. -/
theorem readPortsShowTheRegisters : Obligations.ReadPortsShowTheRegisters := by
  refine ⟨fun s => ?_, rfl, rfl⟩
  have hport := statusPort_toNat s
  have hm := (modeCode s.mode).isLt
  have hf := (faultCode s.fault).isLt
  have hd := s.done.toNat_lt
  refine ⟨?_, ?_, ?_, ?_, rfl, rfl, rfl⟩
  · apply BitVec.eq_of_toNat_eq
    rw [BitVec.extractLsb'_toNat, hport]
    omega
  · rw [← BitVec.testBit_toNat, hport, Nat.testBit_eq_decide_div_mod_eq]
    cases s.done <;> simp <;> omega
  · apply BitVec.eq_of_toNat_eq
    rw [BitVec.extractLsb'_toNat, hport, Nat.shiftRight_eq_div_pow]
    omega
  · apply BitVec.eq_of_toNat_eq
    rw [BitVec.extractLsb'_toNat, hport, Nat.shiftRight_eq_div_pow]
    simp
    omega

end Sys2Proof.Machine

/-! ### The bounds of the invariant, mode by mode -/

namespace Sys2Proof.Machine

theorem modeBounds_enc {s : State} (h : s.mode = .enc) : ModeBounds s ↔
    s.len.toNat ≤ 6 ∧ s.p.toNat = 0 ∧ (7 * s.ocnt.toNat + s.len.toNat) % 8 = 0 := by
  simp only [ModeBounds, h]

/-- DECB and DBUF share their bounds (spec/42_decode_bytes.md R155, R156). -/
theorem modeBounds_decode {s : State} (h : s.mode = .decb ∨ s.mode = .dbuf) : ModeBounds s ↔
    s.len.toNat ≤ 7 ∧ s.p.toNat = 0 ∧ s.len.toNat = (7 * s.icnt.toNat) % 8 := by
  rcases h with h | h <;> simp only [ModeBounds, h]

theorem modeBounds_d64 {s : State} (h : s.mode = .d64) : ModeBounds s ↔
    s.len.toNat ≤ 5 + s.p.toNat ∧
    (7 * s.icnt.toNat) % 8 = (6 * s.ocnt.toNat + s.len.toNat) % 8 ∧
    (s.p.toNat ≤ s.len.toNat ∨ (s.len.toNat = 0 ∧ s.icnt.toNat = 0 ∧ s.ocnt.toNat = 0)) := by
  simp only [ModeBounds, h]

theorem modeBounds_idle {s : State} (h : s.mode = .idle) : ModeBounds s ↔
    s.len.toNat = 0 ∧ s.p.toNat = 0 := by
  simp only [ModeBounds, h]

theorem outputBounds_idle {c : Config.Params} {s : State} (h : s.mode = .idle) :
    OutputBounds c s := by
  simp only [OutputBounds, h]

/-- OCNT counts the symbols of OUTQ, modulo 2^32 (spec/10_state.md R29). -/
def CountsOutq (s : State) : Prop := s.ocnt.toNat = s.outq.length % 2 ^ 32

theorem outputBounds_enc {c : Config.Params} {s : State} (h : s.mode = .enc) :
    OutputBounds c s ↔ CountsOutq s ∧ ∀ v ∈ s.outq, v.toNat ≤ 127 := by
  simp only [OutputBounds, h, CountsOutq]

theorem outputBounds_decb {c : Config.Params} {s : State} (h : s.mode = .decb) :
    OutputBounds c s ↔ CountsOutq s := by
  simp only [OutputBounds, h, CountsOutq]

theorem outputBounds_d64 {c : Config.Params} {s : State} (h : s.mode = .d64) :
    OutputBounds c s ↔ CountsOutq s ∧ ∀ v ∈ s.outq, ∃ i, i ≤ 63 ∧ v = b64Char i := by
  simp only [OutputBounds, h, CountsOutq]

theorem outputBounds_dbuf {c : Config.Params} {s : State} (h : s.mode = .dbuf) :
    OutputBounds c s ↔
      s.outq = [] ∧ s.ocnt.toNat ≤ c.bufCap ∧ ∀ i, i < s.ocnt.toNat → (s.bufmem.read i).isSome := by
  simp only [OutputBounds, h]

/-- In D64 mode a length check that passes lets DROP(P) run without underflow: before the first unit
the check says that P is 0 (spec/43_decode_base64.md R177). -/
theorem p_le_len_of_check {s : State} (hm : s.mode = .d64) (hb : ModeBounds s)
    (hk : (7 * s.icnt.toNat) % 8 = s.p.toNat) : s.p.toNat ≤ s.len.toNat := by
  obtain ⟨_, _, h | ⟨_, hicnt, _⟩⟩ := (modeBounds_d64 hm).1 hb
  · exact h
  · rw [hicnt] at hk
    omega

/-! ### Registers of a completed element command as numbers -/

theorem accept_icnt_toNat (s : State) : (accept s).icnt.toNat = (s.icnt.toNat + 1) % 8 := by
  simp [BitVec.toNat_add]

theorem pushSymbols_ocnt_toNat (vs : List Byte) (s : State) :
    (pushSymbols vs s).ocnt.toNat = (s.ocnt.toNat + vs.length) % 2 ^ 32 := by
  simp [BitVec.toNat_add]

theorem setWindow_accBelow {a l : Nat} (s : State) (ha : a < 2 ^ l) (hl : l ≤ 19) :
    (setWindow a l s).acc.toNat < 2 ^ (setWindow a l s).len.toNat := by
  rwa [setWindow_acc_toNat s ha hl, setWindow_len_toNat a s hl]

theorem element_len {l : Nat} (vs : List Byte) (a : Nat) (s : State) (hl : l ≤ 19) :
    (accept (pushSymbols vs (setWindow a l s))).len.toNat = l :=
  setWindow_len_toNat a s hl

theorem element_p (vs : List Byte) (a l : Nat) (s : State) :
    (accept (pushSymbols vs (setWindow a l s))).p = s.p := rfl

theorem element_icnt (vs : List Byte) (a l : Nat) (s : State) :
    (accept (pushSymbols vs (setWindow a l s))).icnt.toNat = (s.icnt.toNat + 1) % 8 :=
  accept_icnt_toNat s

theorem element_ocnt (vs : List Byte) (a l : Nat) (s : State) :
    (accept (pushSymbols vs (setWindow a l s))).ocnt.toNat = (s.ocnt.toNat + vs.length) % 2 ^ 32 :=
  pushSymbols_ocnt_toNat vs s

theorem countsOutq_element {s : State} (h : CountsOutq s) (vs : List Byte) (a l : Nat) :
    CountsOutq (accept (pushSymbols vs (setWindow a l s))) := by
  unfold CountsOutq at *
  rw [element_ocnt, accept_outq, pushSymbols_outq, setWindow_outq, List.length_append]
  omega

theorem forall_mem_element {P : Byte → Prop} {s : State} {vs : List Byte} {a l : Nat}
    (hs : ∀ v ∈ s.outq, P v) (hvs : ∀ v ∈ vs, P v) :
    ∀ v ∈ (accept (pushSymbols vs (setWindow a l s))).outq, P v :=
  List.forall_mem_append.2 ⟨hs, hvs⟩

/-- A group of `n` bits is below `2^n`. -/
theorem lt_of_mem_groups {n k a l x : Nat} (h : x ∈ groups n k a l) : x < 2 ^ n := by
  induction k generalizing a l with
  | zero => simp [groups] at h
  | succ k ih =>
    rcases List.mem_cons.1 h with rfl | h
    · exact Nat.mod_lt _ (by positivity)
    · exact ih h

/-- After a write exactly the written index and those stored before hold a byte. -/
theorem read_write_isSome (m : Memory) (i j : Nat) (v : Byte) :
    ((m.write i v).read j).isSome ↔ j = i ∨ (m.read j).isSome := by
  by_cases h : j = i
  · simp [h, Memory.read_write_same]
  · simp [h, Memory.read_write_other m v h]

/-! ### Room in OUTQ -/

theorem roomFor_of_outq_nil {c : Config.Params} {s : State} (h : s.outq = []) : roomFor c s 0 :=
  fun n _ => by simp [h]

theorem roomFor_pushSymbols {c : Config.Params} {s : State} {vs : List Byte}
    (h : roomFor c s vs.length) : roomFor c (pushSymbols vs s) 0 := fun n hn => by
  simpa using h n hn

/-! ### The shared operations keep the invariant -/

/-- The port and the position are no part of the invariant. -/
theorem inv_setPort {c : Config.Params} {s : State} (h : Inv c s) (input : List HostEvent)
    (pos : Nat) : Inv c { s with input := input, pos := pos } :=
  { h with }

/-- A fault record keeps the window and BUFMEM and withdraws the output. -/
theorem inv_raise {c : Config.Params} {s : State} (h : Inv c s) {f : FaultCode}
    (hf : f ≠ .noFault) (w : Word) : Inv c (raise f w s) :=
  { h with
    outputBounds := fun hn => absurd hn hf
    outqFits := roomFor_of_outq_nil rfl
    doneIdle := fun hd => nomatch hd
    noFaultNoRecord := fun hn => absurd hn hf
    faultWithdraws := fun _ => rfl }

/-- Reset needs of the state before it only what the invariant says of BUFMEM. -/
theorem inv_resetCodec {c : Config.Params} {s : State} (hwf : s.bufmem.wf = true)
    (hin : ∀ i, (s.bufmem.read i).isSome → i < (c.bufCap : Nat)) : Inv c (resetCodec s) where
  accBelow := by simp
  modeBounds := ⟨rfl, rfl⟩
  outputBounds := fun _ => outputBounds_idle rfl
  outqFits := roomFor_of_outq_nil rfl
  doneIdle := fun hd => nomatch hd
  noFaultNoRecord := fun _ => rfl
  faultWithdraws := fun _ => rfl
  bufmemWf := hwf
  bufmemInside := hin
  resultStored := ⟨Nat.zero_le _, fun _ h => absurd h (Nat.not_lt_zero _)⟩
  openWithdraws := fun hm => nomatch hm

theorem inv_withdrawBuf {c : Config.Params} {s : State} (h : Inv c s) : Inv c (withdrawBuf s) :=
  { h with
    resultStored := ⟨Nat.zero_le _, fun _ h => absurd h (Nat.not_lt_zero _)⟩
    openWithdraws := fun _ => rfl }

/-- A transaction starts with an empty window; only D64 declares padding bits, and DBUF first withdraws
the last result. -/
theorem inv_init {c : Config.Params} {s : State} (h : Inv c s) {m : Mode} {q : BitVec 3}
    (hq : m = .d64 ∨ q = 0) (hres : m = .dbuf → s.bufResult = 0) :
    Inv c (init m q s) :=
  { h with
    accBelow := by simp
    modeBounds := by cases m <;> simp_all [ModeBounds]
    outputBounds := fun _ => by cases m <;> simp [OutputBounds]
    outqFits := roomFor_of_outq_nil rfl
    doneIdle := fun hd => nomatch hd
    faultWithdraws := fun _ => rfl
    openWithdraws := hres }

/-- An element that put symbols out keeps the invariant when it keeps the bounds of its mode. -/
theorem inv_element {c : Config.Params} {s : State} (h : Inv c s) (hf : s.fault = .noFault)
    (hm : s.mode ≠ .idle) {vs : List Byte} {a l : Nat} (hroom : roomFor c s vs.length)
    (ha : a < 2 ^ l) (hl : l ≤ 19)
    (hmode : ModeBounds (accept (pushSymbols vs (setWindow a l s))))
    (hout : OutputBounds c (accept (pushSymbols vs (setWindow a l s)))) :
    Inv c (accept (pushSymbols vs (setWindow a l s))) :=
  { h with
    accBelow := setWindow_accBelow s ha hl
    modeBounds := hmode
    outputBounds := fun _ => hout
    outqFits := roomFor_pushSymbols hroom
    doneIdle := fun hd => absurd (h.doneIdle hd).1 hm
    faultWithdraws := fun hn => absurd hf hn }

/-- A commit of a transaction other than DBUF, after its last symbols. -/
theorem inv_commit {c : Config.Params} {s : State} (h : Inv c s) (hf : s.fault = .noFault)
    {vs : List Byte} (hroom : roomFor c s vs.length) : Inv c (commit (pushSymbols vs s)) :=
  { h with
    accBelow := by simp
    modeBounds := ⟨rfl, rfl⟩
    outputBounds := fun _ => outputBounds_idle rfl
    outqFits := roomFor_pushSymbols hroom
    doneIdle := fun _ => ⟨rfl, hf⟩
    faultWithdraws := fun hn => absurd hf hn
    openWithdraws := fun hm => nomatch hm }

/-- DBUF's commit: the bytes written are the result. -/
theorem inv_commit_publishBuf {c : Config.Params} {s : State} (h : Inv c s)
    (hf : s.fault = .noFault) (hm : s.mode = .dbuf) : Inv c (commit (publishBuf s)) :=
  { h with
    accBelow := by simp
    modeBounds := ⟨rfl, rfl⟩
    outputBounds := fun _ => outputBounds_idle rfl
    doneIdle := fun _ => ⟨rfl, hf⟩
    faultWithdraws := fun hn => absurd hf hn
    resultStored := ((outputBounds_dbuf hm).1 (h.outputBounds hf)).2
    openWithdraws := fun hm => nomatch hm }

/-- A command that ends in an emission keeps the invariant if what follows the emission does: without
room it leaves a fault record. -/
theorem inv_conclude_emitList {c : Config.Params} {s : State} (h : Inv c s) {w : Word} {a l : Nat}
    {vs : List Byte} {k : State → State}
    (hk : roomFor c s vs.length → Inv c (k (pushSymbols vs (setWindow a l s)))) :
    Inv c (conclude w s ((emitList c vs (setWindow a l s)).map k)) := by
  rcases emitList_cases c vs (setWindow a l s) with he | ⟨_, he⟩
  · have hroom : roomFor c (setWindow a l s) vs.length := emitList_roomFor h.outqFits he
    rw [he]
    exact hk hroom
  · rw [he]
    exact inv_raise h (by simp) w

/-- A unit with bit 7 set leaves InvalidInput's record (spec/60_exceptions.md R224). -/
theorem runCommand_checkUnit_raises {i : Instr} {required : Mode} {u : Byte}
    (f : State → Except FaultCode State) {s : State} (hf : s.fault = .noFault)
    (hm : s.mode = required) (hu : ¬ u.toNat ≤ 127) :
    runCommand i required (fun t => do checkUnit u; f t) s = raise .invalidInput (encode i) s := by
  rw [runCommand_runs hf hm, checkUnit_eq, if_neg hu]
  rfl

/-! ### Each element and END command keeps the invariant -/

section
variable {c : Config.Params} {s : State}

/-- A BEGIN, DECB.END or DBUF.END, which raises nothing of its own. -/
theorem inv_runCommand_ok {i : Instr} {required : Mode} {f : State → State}
    (hf : s.fault = .noFault) (hm : s.mode = required) (h : Inv c (f s)) :
    Inv c (runCommand i required (fun t => .ok (f t)) s) := by
  rwa [runCommand_runs hf hm]

theorem inv_encByte (h : Inv c s) (hf : s.fault = .noFault) (hm : s.mode = .enc) (b : Byte) :
    Inv c (encByte c b s) := by
  obtain ⟨hlen, hp, hcong⟩ := (modeBounds_enc hm).1 h.modeBounds
  obtain ⟨hcount, hsym⟩ := (outputBounds_enc hm).1 (h.outputBounds hf)
  rw [encByte_runs c b s hf hm hlen h.accBelow]
  refine inv_conclude_emitList h fun hroom => ?_
  have hl : s.len.toNat + 8 - (s.len.toNat + 8) / 7 * 7 ≤ 6 := by omega
  refine inv_element h hf (by simp [hm]) hroom (Nat.mod_lt _ (by positivity)) (by omega)
    (Iff.mpr (modeBounds_enc hm) ?_) (Iff.mpr (outputBounds_enc hm) ⟨?_, ?_⟩)
  · rw [element_len _ _ s (by omega), element_ocnt, List.length_map, groups_length]
    exact ⟨hl, hp, by omega⟩
  · exact countsOutq_element hcount _ _ _
  · refine forall_mem_element hsym fun v hv => ?_
    obtain ⟨x, hx, rfl⟩ := List.mem_map.1 hv
    have := lt_of_mem_groups hx
    rw [BitVec.toNat_ofNat]
    omega

theorem inv_encEnd (h : Inv c s) (hf : s.fault = .noFault) (hm : s.mode = .enc) :
    Inv c (encEnd c s) := by
  obtain ⟨hlen, _, _⟩ := (modeBounds_enc hm).1 h.modeBounds
  rw [encEnd_runs c s hf hm hlen h.accBelow]
  exact inv_conclude_emitList h fun hroom => inv_commit h hf hroom

/-- The bounds of DECB and DBUF after one more unit, whether it found a pending bit, so that a byte left
the window, or an empty window. -/
theorem modeBounds_decode_unit (h : ModeBounds s) (hm : s.mode = .decb ∨ s.mode = .dbuf) {t : State}
    (hmode : t.mode = s.mode) (hp : t.p = s.p) (hicnt : t.icnt = s.icnt + 1)
    (hlen : t.len.toNat = if 0 < s.len.toNat then s.len.toNat - 1 else s.len.toNat + 7) :
    ModeBounds t := by
  obtain ⟨hlen7, hp0, hcong⟩ := (modeBounds_decode hm).1 h
  have hicnt' : t.icnt.toNat = (s.icnt.toNat + 1) % 8 := by rw [hicnt]; exact accept_icnt_toNat s
  rw [modeBounds_decode (hmode ▸ hm), hp, hicnt']
  split at hlen <;> omega

theorem inv_decbUnit (h : Inv c s) (hf : s.fault = .noFault) (hm : s.mode = .decb) (u : Byte) :
    Inv c (decbUnit c u s) := by
  by_cases hu : u.toNat ≤ 127
  case neg =>
    rw [decbUnit, runCommand_checkUnit_raises _ hf hm hu]
    exact inv_raise h (by simp) _
  obtain ⟨hlen, _, _⟩ := (modeBounds_decode (.inl hm)).1 h.modeBounds
  have hcount := (outputBounds_decb hm).1 (h.outputBounds hf)
  rw [decbUnit_runs c u s hf hm hlen h.accBelow hu]
  by_cases h0 : 0 < s.len.toNat
  · rw [if_pos h0]
    refine inv_conclude_emitList h fun hroom => ?_
    refine inv_element h hf (by simp [hm]) hroom (Nat.mod_lt _ (by positivity)) (by omega)
      (modeBounds_decode_unit h.modeBounds (.inl hm) rfl rfl rfl ?_)
      (Iff.mpr (outputBounds_decb hm) (countsOutq_element hcount _ _ _))
    rw [element_len _ _ s (by omega), if_pos h0]
  · rw [if_neg h0]
    have hroom : roomFor c s ([] : List Byte).length := h.outqFits
    have := inv_element h hf (by simp [hm]) hroom
      (shifted_lt h.accBelow (by omega : u.toNat < 2 ^ 7)) (by omega)
      (modeBounds_decode_unit h.modeBounds (.inl hm) rfl rfl rfl
        (by rw [element_len _ _ s (by omega), if_neg h0]))
      (Iff.mpr (outputBounds_decb hm) (countsOutq_element hcount _ _ _))
    rwa [pushSymbols_nil] at this

theorem inv_decbEnd (h : Inv c s) (hf : s.fault = .noFault) (hm : s.mode = .decb) :
    Inv c (decbEnd s) := by
  have hroom : roomFor c s ([] : List Byte).length := h.outqFits
  have hcommit := inv_commit h hf hroom
  rw [pushSymbols_nil] at hcommit
  exact inv_runCommand_ok hf hm hcommit

theorem inv_dbufEnd (h : Inv c s) (hf : s.fault = .noFault) (hm : s.mode = .dbuf) :
    Inv c (dbufEnd s) :=
  inv_runCommand_ok (f := fun t => commit (publishBuf t)) hf hm
    (inv_commit_publishBuf h hf hm)

/-- A DBUF unit that found the window empty: nothing goes out. -/
theorem inv_dbuf_keep (h : Inv c s) (hf : s.fault = .noFault) (hm : s.mode = .dbuf) {a : Nat}
    (h0 : s.len.toNat = 0) (ha : a < 2 ^ 7) : Inv c (accept (setWindow a 7 s)) := by
  have hroom : roomFor c s ([] : List Byte).length := h.outqFits
  have hmode : ModeBounds (accept (setWindow a 7 s)) :=
    modeBounds_decode_unit h.modeBounds (.inr hm) rfl rfl rfl
      (by rw [accept_len, setWindow_len_toNat _ _ (by omega), h0]; rfl)
  have hout : OutputBounds c (accept (setWindow a 7 s)) :=
    Iff.mpr (outputBounds_dbuf hm) ((outputBounds_dbuf hm).1 (h.outputBounds hf))
  have := inv_element (vs := []) h hf (by simp [hm]) hroom ha (by omega)
  rw [pushSymbols_nil] at this
  exact this hmode hout

/-- A DBUF unit that found a pending bit: the byte is stored at OCNT, which BUFMEM has. -/
theorem inv_dbuf_write (h : Inv c s) (hf : s.fault = .noFault) (hm : s.mode = .dbuf) {a : Nat}
    (v : Byte) (h0 : 0 < s.len.toNat) (ha : a < 2 ^ (s.len.toNat - 1))
    (hcap : s.ocnt.toNat < (c.bufCap : Nat)) :
    Inv c (accept { setWindow a (s.len.toNat - 1) s with
      bufmem := s.bufmem.write s.ocnt.toNat v, ocnt := s.ocnt + 1 }) := by
  obtain ⟨hlen, _, _⟩ := (modeBounds_decode (.inr hm)).1 h.modeBounds
  obtain ⟨hnil, _, hstored⟩ := (outputBounds_dbuf hm).1 (h.outputBounds hf)
  have hocnt : (s.ocnt + 1).toNat = s.ocnt.toNat + 1 := by
    have := c.bufCap.isLt
    rw [BitVec.toNat_add, show (1 : BitVec 32).toNat = 1 from rfl]
    omega
  exact { h with
    accBelow := setWindow_accBelow s ha (by omega)
    modeBounds := modeBounds_decode_unit h.modeBounds (.inr hm) rfl rfl rfl
      (by rw [if_pos h0]; exact setWindow_len_toNat a s (by omega))
    outputBounds := fun _ => Iff.mpr (outputBounds_dbuf hm) ⟨hnil, hocnt.trans_le hcap,
      fun i hi => by
        have hi : i < s.ocnt.toNat + 1 := hocnt ▸ hi
        rw [accept_bufmem, read_write_isSome]
        exact (Nat.lt_succ_iff_lt_or_eq.1 hi).symm.imp_right (hstored i)⟩
    doneIdle := fun hd => by simp [(h.doneIdle hd).1] at hm
    faultWithdraws := fun hn => absurd hf hn
    bufmemWf := Memory.wf_write _ v h.bufmemWf
    bufmemInside := fun i hi => by
      rw [accept_bufmem, read_write_isSome] at hi
      rcases hi with rfl | hi
      · exact hcap
      · exact h.bufmemInside i hi
    resultStored := by
      have : s.bufResult = 0 := h.openWithdraws hm
      exact ⟨by simp [this], fun i hi => by simp [this] at hi⟩ }

theorem inv_dbufUnit (h : Inv c s) (hf : s.fault = .noFault) (hm : s.mode = .dbuf) (u : Byte) :
    Inv c (dbufUnit c u s) := by
  by_cases hu : u.toNat ≤ 127
  case neg =>
    rw [dbufUnit, runCommand_checkUnit_raises _ hf hm hu]
    exact inv_raise h (by simp) _
  obtain ⟨hlen, _, _⟩ := (modeBounds_decode (.inr hm)).1 h.modeBounds
  have hacc := h.accBelow
  rw [dbufUnit_runs c u s hf hm hlen hacc hu]
  by_cases h0 : 0 < s.len.toNat
  · rw [if_pos h0, bufwrite_eq]
    split
    next => exact inv_raise h (by simp) _
    next hcap =>
      exact inv_dbuf_write h hf hm _ h0 (Nat.mod_lt _ (by positivity)) (Nat.lt_of_not_le hcap)
  · rw [if_neg h0]
    have hempty : s.len.toNat = 0 := Nat.eq_zero_of_not_pos h0
    have hwindow := shifted_lt hacc (by omega : u.toNat < 2 ^ 7)
    rw [hempty] at hwindow ⊢
    exact inv_dbuf_keep h hf hm hempty hwindow

theorem inv_d64Unit (h : Inv c s) (hf : s.fault = .noFault) (hm : s.mode = .d64) (u : Byte) :
    Inv c (d64Unit c u s) := by
  by_cases hu : u.toNat ≤ 127
  case neg =>
    rw [d64Unit, runCommand_checkUnit_raises _ hf hm hu]
    exact inv_raise h (by simp) _
  obtain ⟨hlen, hcong, hdrop⟩ := (modeBounds_d64 hm).1 h.modeBounds
  obtain ⟨hcount, hsym⟩ := (outputBounds_d64 hm).1 (h.outputBounds hf)
  have hp := s.p.isLt
  rw [d64Unit_runs c u s hf hm hlen h.accBelow hu]
  refine inv_conclude_emitList h fun hroom => ?_
  refine inv_element h hf (by simp [hm]) hroom (Nat.mod_lt _ (by positivity)) (by omega)
    (Iff.mpr (modeBounds_d64 hm) ?_) (Iff.mpr (outputBounds_d64 hm) ⟨?_, ?_⟩)
  · rw [element_len _ _ s (by omega), element_ocnt, element_icnt, element_p, List.length_map,
      groups_length]
    omega
  · exact countsOutq_element hcount _ _ _
  · refine forall_mem_element hsym fun v hv => ?_
    obtain ⟨x, hx, rfl⟩ := List.mem_map.1 hv
    have := lt_of_mem_groups hx
    exact ⟨x, by omega, rfl⟩

theorem inv_d64End (h : Inv c s) (hf : s.fault = .noFault) (hm : s.mode = .d64) :
    Inv c (d64End c s) := by
  by_cases hk : (7 * s.icnt.toNat) % 8 = s.p.toNat
  · obtain ⟨hlen, _, _⟩ := (modeBounds_d64 hm).1 h.modeBounds
    rw [d64End_runs c s hf hm hk (p_le_len_of_check hm h.modeBounds hk) hlen h.accBelow]
    exact inv_conclude_emitList h fun hroom => inv_commit h hf hroom
  · rw [d64End, runCommand_runs hf hm, if_pos (by simp [lengthMismatch, hk])]
    exact inv_raise h (by simp) _

end

/-! ### Every command, word, event and run keeps the invariant -/

section
variable {c : Config.Params} {s : State}

/-- Every command keeps the invariant: ignored and faulting ones at once, the others one by one. -/
theorem inv_effect (h : Inv c s) (i : Instr) : Inv c (effect c i s) := by
  rcases effect_cases c i s with ⟨_, he⟩ | ⟨_, f, hne, he⟩ | ⟨hf, hm, hw, _⟩
  · rwa [he]
  · rw [he]
    exact inv_raise h hne _
  · cases i with
    | encBegin => exact inv_runCommand_ok hf hm (inv_init h (.inr rfl) (by simp))
    | encByte b => exact inv_encByte h hf hm b
    | encEnd => exact inv_encEnd h hf hm
    | decbBegin => exact inv_runCommand_ok hf hm (inv_init h (.inr rfl) (by simp))
    | decbUnit u => exact inv_decbUnit h hf hm u
    | decbEnd => exact inv_decbEnd h hf hm
    | d64Begin k =>
      have hk : k.toNat ≤ 7 := by simpa [Instr.WellFormed, Instr.wellFormed] using hw
      rw [effect, d64Begin, if_pos hk]
      exact inv_runCommand_ok hf hm (inv_init h (.inl rfl) (by simp))
    | d64Unit u => exact inv_d64Unit h hf hm u
    | d64End => exact inv_d64End h hf hm
    | dbufBegin =>
      exact inv_runCommand_ok (f := fun t => init .dbuf 0 (withdrawBuf t)) hf hm
        (inv_init (inv_withdrawBuf h) (.inr rfl) (fun _ => rfl))
    | dbufUnit u => exact inv_dbufUnit h hf hm u
    | dbufEnd => exact inv_dbufEnd h hf hm

theorem inv_issue (h : Inv c s) (w : Word) : Inv c (issue c w s) := by
  unfold issue
  cases decode w with
  | illegal why =>
    rcases illegalCommand_cases w s with ⟨_, he⟩ | ⟨_, he⟩
    · exact he.symm ▸ h
    · exact he.symm ▸ inv_raise h (by simp) w
  | command i => exact inv_effect h i

/-- A reset or a command word keeps the invariant. -/
theorem inv_deliver (h : Inv c s) (e : HostEvent) : Inv c (deliver c s e) := by
  cases e with
  | command w => exact inv_issue (inv_setPort h _ _) w
  | reset => exact inv_resetCodec h.bufmemWf h.bufmemInside

end

/-- Settles O32: the state after reset is the reset of a state with an empty BUFMEM. -/
theorem resetHasTheInvariant : Obligations.ResetHasTheInvariant := fun c =>
  inv_resetCodec (s := State.reset) rfl (fun i h => by simp [State.reset] at h)

/-- Settles O33: a step takes nothing, a reset, or a command word, and the port and the position are no
part of the invariant. -/
theorem stepKeepsTheInvariant : Obligations.StepKeepsTheInvariant := by
  intro s t h hstep
  rcases step_cases hstep with ⟨_, rfl⟩ | ⟨rest, _, rfl⟩ | ⟨w, rest, _, rfl⟩
  · exact h
  · exact inv_resetCodec h.bufmemWf h.bufmemInside
  · exact inv_issue (inv_setPort h rest (s.pos + 1)) w

/-- Settles O34: every event keeps the invariant, by induction on the list of events. -/
theorem runsKeepTheInvariant : Obligations.RunsKeepTheInvariant := by
  intro c events
  induction events with
  | nil => exact fun s h => h
  | cons e events ih => exact fun s h => ih (deliver c s e) (inv_deliver h e)

/-! ### The window just after SHIFT_IN -/

/-- SHIFT_IN within the window's 19 bits loses no bit: LEN grows by the new bits, and ACC is the old
window followed by them (spec/40_accumulator.md R101, R114). -/
theorem shiftIn_window {v nb : Nat} (s : State) (ha : s.acc.toNat < 2 ^ s.len.toNat)
    (hv : v < 2 ^ nb) (hl : s.len.toNat + nb ≤ 19) :
    (shiftIn v nb s).len.toNat = s.len.toNat + nb ∧
    (shiftIn v nb s).acc.toNat = s.acc.toNat * 2 ^ nb + v := by
  rw [shiftIn_eq s hv]
  exact ⟨setWindow_len_toNat _ s hl, setWindow_acc_toNat s (shifted_lt ha hv) hl⟩

/-- Settles O35: the bounds by mode are the invariant's, and with them SHIFT_IN stays within 19 bits. -/
theorem windowBoundsByMode : Obligations.WindowBoundsByMode := by
  intro c s h
  refine ⟨fun hm => ((modeBounds_idle hm).1 h.modeBounds).1, fun hm => ?enc, fun hm => ?decode,
    fun hm => ?d64⟩
  case enc =>
    obtain ⟨hlen, _, _⟩ := (modeBounds_enc hm).1 h.modeBounds
    refine ⟨hlen, fun b => ?_⟩
    obtain ⟨hlen', hacc'⟩ := shiftIn_window (nb := 8) s h.accBelow b.isLt (by omega)
    exact ⟨by omega, hacc'⟩
  case decode =>
    obtain ⟨hlen, _, _⟩ := (modeBounds_decode hm).1 h.modeBounds
    refine ⟨hlen, fun u hu => ?_⟩
    obtain ⟨hlen', hacc'⟩ := shiftIn_window (v := u.toNat) (nb := 7) s h.accBelow (by omega) (by omega)
    exact ⟨by omega, hacc'⟩
  case d64 =>
    obtain ⟨hlen, _, _⟩ := (modeBounds_d64 hm).1 h.modeBounds
    have hp := s.p.isLt
    refine ⟨hlen, fun u hu => ?_⟩
    obtain ⟨hlen', hacc'⟩ := shiftIn_window (v := u.toNat) (nb := 7) s h.accBelow (by omega) (by omega)
    exact ⟨by omega, by omega, hacc'⟩

end Sys2Proof.Machine

/-! ### The host's view of OUTQ -/

namespace Sys2Proof.Machine

theorem hostOutq_of_committed {s : State} (hd : s.done = true) (hf : s.fault = .noFault) :
    hostOutq s = s.outq := by
  simp [hostOutq, committed, hd, hf]

theorem hostOutq_isPrefix (s : State) : hostOutq s <+: s.outq := by
  unfold hostOutq
  split
  · exact ⟨[], List.append_nil _⟩
  · exact ⟨_, List.take_append_drop _ _⟩

/-- Settles O13: the two branches of the host's view. -/
theorem hostSeesCommittedOutput : Obligations.HostSeesCommittedOutput :=
  fun s => ⟨hostOutq_of_committed, hostOutq_isPrefix s⟩

/-! ### Groups of a bit stream -/

/-- Bits above the window are in no group. -/
theorem groups_mod {n k l : Nat} (a : Nat) (h : n * k ≤ l) :
    groups n k (a % 2 ^ l) l = groups n k a l := by
  rw [groups_eq h, groups_eq h]
  refine List.map_congr_left fun j hj => ?_
  have hj : n * (j + 1) ≤ n * k := Nat.mul_le_mul_left _ (List.mem_range.1 hj)
  have hl : 2 ^ l = 2 ^ (l - n * (j + 1)) * 2 ^ (n * (j + 1)) := by
    rw [← Nat.pow_add, Nat.sub_add_cancel (hj.trans h)]
  rw [hl, Nat.mod_mul_right_div_self, mod_two_pow_mod (Nat.le_mul_of_pos_right n j.succ_pos)]

/-- Bits appended at the low end change no group taken above them (spec/20_memory.md R52). -/
theorem groups_append_bits {n k l w b : Nat} (a : Nat) (h : n * k ≤ l) (hb : b < 2 ^ w) :
    groups n k (a * 2 ^ w + b) (l + w) = groups n k a l := by
  rw [groups_eq (h.trans (Nat.le_add_right l w)), groups_eq h]
  refine List.map_congr_left fun j hj => ?_
  have hj : n * (j + 1) ≤ n * k := Nat.mul_le_mul_left _ (List.mem_range.1 hj)
  have hl : l + w - n * (j + 1) = w + (l - n * (j + 1)) := by omega
  rw [hl, Nat.pow_add, ← Nat.div_div_eq_div_mul, Nat.mul_comm a, Nat.mul_add_div (by positivity),
    Nat.div_eq_of_lt hb, Nat.add_zero]

/-- Taking `j + k` groups is taking `j`, then `k` from the bits below them. -/
theorem groups_add {n j k l : Nat} (a : Nat) (h : n * (j + k) ≤ l) :
    groups n (j + k) a l = groups n j a l ++ groups n k a (l - n * j) := by
  induction j generalizing a l with
  | zero => simp [groups]
  | succ j ih =>
    have hl : n * (j + 1 + k) = n * (j + k) + n := by ring
    have hk : n * k ≤ l - n * (j + 1) := by rw [Nat.mul_add n (j + 1) k] at h; omega
    rw [Nat.succ_add, groups, groups, ih _ (by omega), List.cons_append, Nat.sub_sub,
      Nat.add_comm n, ← Nat.mul_succ]
    rw [← groups_mod (a % 2 ^ (l - n)) hk, mod_two_pow_mod (by rw [Nat.mul_succ]; omega),
      groups_mod a hk]

/-- The stream bit `s` of a sequence of `w`-bit symbols, each from its high bit down
(spec/20_memory.md R52, R53). -/
def streamBit (w : Nat) (xs : List Nat) (s : Nat) : Bool :=
  (xs.getD (s / w) 0).testBit (w - 1 - s % w)

/-- The groups of a window hold its bits in order, from the high end. -/
theorem streamBit_groups {n k l s : Nat} (a : Nat) (h : n * k ≤ l) (hs : s < n * k) :
    streamBit n (groups n k a l) s = a.testBit (l - 1 - s) := by
  have hn : 0 < n := Nat.pos_of_mul_pos_right (Nat.zero_lt_of_lt hs)
  have hj : s / n < k := Nat.div_lt_of_lt_mul hs
  have hi : s % n < n := Nat.mod_lt s hn
  have hjk : n * (s / n + 1) ≤ n * k := Nat.mul_le_mul_left n hj
  have hbit : l - n * (s / n + 1) + (n - 1 - s % n) = l - 1 - s := by
    have := Nat.div_add_mod s n
    rw [Nat.mul_succ] at hjk ⊢
    omega
  rw [streamBit, groups_eq h, List.getD_eq_getElem _ _ (by simpa using hj), List.getElem_map,
    List.getElem_range, Nat.testBit_mod_two_pow, Nat.testBit_div_two_pow, Nat.add_comm, hbit]
  simp [show n - 1 - s % n < n by omega]

/-! ### The reference operations as groups of the whole input stream -/

/-- The number whose bits are the stream of the `w`-bit symbols `xs`. -/
def packed (w : Nat) (xs : List Nat) : Nat := xs.foldl (fun a x => a * 2 ^ w + x) 0

@[simp] theorem packed_nil (w : Nat) : packed w [] = 0 := rfl

@[simp] theorem packed_concat (w : Nat) (xs : List Nat) (x : Nat) :
    packed w (xs ++ [x]) = packed w xs * 2 ^ w + x := by
  simp [packed]

/-- The `w`-bit groups of the stream of `w`-bit symbols are those symbols. -/
theorem groups_packed {w : Nat} {xs : List Nat} (h : ∀ x ∈ xs, x < 2 ^ w) :
    groups w xs.length (packed w xs) (w * xs.length) = xs := by
  induction xs using List.reverseRecOn with
  | nil => rfl
  | append_singleton xs x ih =>
    obtain ⟨hxs, hx⟩ := List.forall_mem_append.1 h
    rw [List.forall_mem_singleton] at hx
    have hlast : groups w 1 (packed w xs * 2 ^ w + x) w = [x] := by
      simp [groups, Nat.mod_eq_of_lt hx]
    rw [List.length_append, List.length_singleton, groups_add _ le_rfl, packed_concat,
      Nat.mul_succ, groups_append_bits _ le_rfl hx, ih hxs, Nat.add_sub_cancel_left, hlast]

/-- The bits of a packed sequence, from the high end, are its stream. -/
theorem packed_testBit {w s : Nat} {xs : List Nat} (h : ∀ x ∈ xs, x < 2 ^ w)
    (hs : s < w * xs.length) :
    (packed w xs).testBit (w * xs.length - 1 - s) = streamBit w xs s := by
  rw [← streamBit_groups _ le_rfl hs, groups_packed h]

/-- The reference state once the `w`-bit symbols `xs` came in and every whole `n`-bit group of their
stream went out. -/
def regrouped (w n : Nat) (xs : List Nat) : RefState :=
  ⟨packed w xs, w * xs.length % n, groups n (w * xs.length / n) (packed w xs) (w * xs.length)⟩

/-- One more symbol: the groups that go out are those of the pending bits followed by it. -/
theorem regrouped_concat {w x : Nat} (n : Nat) (xs : List Nat) (hx : x < 2 ^ w) :
    regrouped w n (xs ++ [x]) =
      ⟨packed w xs * 2 ^ w + x, ((regrouped w n xs).len + w) % n, (regrouped w n xs).out ++
        groups n (((regrouped w n xs).len + w) / n) (packed w xs * 2 ^ w + x)
          ((regrouped w n xs).len + w)⟩ := by
  have hlen := Nat.div_add_mod (w * xs.length) n
  have hpending : w * xs.length + w - n * (w * xs.length / n) = w * xs.length % n + w := by omega
  have hcount : (w * xs.length + w) / n = w * xs.length / n + (w * xs.length % n + w) / n := by
    rcases Nat.eq_zero_or_pos n with rfl | hn
    · simp
    · rw [← Nat.mul_add_div hn, ← Nat.add_assoc, hlen]
  have htake : n * (w * xs.length / n + (w * xs.length % n + w) / n) ≤ w * xs.length + w :=
    hcount ▸ Nat.mul_div_le _ _
  rw [regrouped, regrouped, packed_concat, List.length_append, List.length_singleton, Nat.mul_succ,
    hcount, groups_add _ htake, groups_append_bits _ (Nat.mul_div_le _ _) hx, hpending,
    Nat.mod_add_mod]

/-- The loop never takes more bits than there are. -/
theorem mul_passes_le {threshold n : Nat} (h : n ≤ threshold) (fuel l : Nat) :
    n * passes threshold n fuel l ≤ l := by
  induction fuel generalizing l with
  | zero => simp [passes]
  | succ fuel ih =>
    have := ih (l - n)
    rw [passes]
    split
    · rw [Nat.mul_succ]; omega
    · omega

/-- The loop of the source puts out the oldest groups of its window. -/
theorem refDrain_eq {threshold n : Nat} (h : n ≤ threshold) (symbol : Nat → Nat) (fuel : Nat)
    (r : RefState) :
    refDrain threshold n symbol fuel r =
      ⟨r.buf, r.len - n * passes threshold n fuel r.len,
        r.out ++ (groups n (passes threshold n fuel r.len) r.buf r.len).map symbol⟩ := by
  induction fuel generalizing r with
  | zero => simp [refDrain, passes, groups]
  | succ fuel ih =>
    rw [refDrain, passes]
    split
    · rw [ih, groups, groups_mod _ (mul_passes_le h fuel _)]
      simp [and_mask, Nat.shiftRight_eq_div_pow, Nat.mul_add, Nat.sub_sub, Nat.add_comm]
    · simp [groups]

/-- `encode_ref` after the whole input: every whole unit is out, fewer than 7 bits are pending. -/
theorem foldl_encodeRefByte {bs : List Nat} (h : ∀ b ∈ bs, b < 2 ^ 8) :
    bs.foldl encodeRefByte ⟨0, 0, []⟩ = regrouped 8 7 bs := by
  induction bs using List.reverseRecOn with
  | nil => rfl
  | append_singleton bs b ih =>
    obtain ⟨hbs, hb⟩ := List.forall_mem_append.1 h
    rw [List.forall_mem_singleton] at hb
    have hlen : (regrouped 8 7 bs).len < 7 := Nat.mod_lt _ (by omega)
    rw [List.foldl_concat, ih hbs, regrouped_concat 7 bs hb, encodeRefByte, refDrain_eq le_rfl,
      shift_or hb, passes_seven (by omega) (by omega), List.map_id, ← Nat.mod_eq_sub_mul_div]
    rfl

/-- `decode_ref` after the whole input: every whole byte is out, fewer than 8 bits are pending. -/
theorem foldl_decodeRefUnit {us : List Nat} (h : ∀ u ∈ us, u < 2 ^ 7) :
    us.foldl decodeRefUnit ⟨0, 0, []⟩ = regrouped 7 8 us := by
  induction us using List.reverseRecOn with
  | nil => rfl
  | append_singleton us u ih =>
    obtain ⟨hus, hu⟩ := List.forall_mem_append.1 h
    rw [List.forall_mem_singleton] at hu
    have hlen : (regrouped 7 8 us).len < 8 := Nat.mod_lt _ (by omega)
    rw [List.foldl_concat, ih hus, regrouped_concat 8 us hu, decodeRefUnit, shift_or hu]
    split
    next hbyte =>
      rw [show ((regrouped 7 8 us).len + 7) / 8 = 1 by omega, Nat.mod_eq_sub_mod hbyte,
        Nat.mod_eq_of_lt (by omega : (regrouped 7 8 us).len + 7 - 8 < 8), and_mask,
        Nat.shiftRight_eq_div_pow]
      rfl
    next hnone =>
      rw [Nat.div_eq_of_lt (by omega), Nat.mod_eq_of_lt (by omega), groups, List.append_nil]
      rfl

/-- `decode_ref` splits the stream of its units into bytes (spec/20_memory.md R53). -/
theorem decodeRef_eq_groups {us : List Nat} (h : ∀ u ∈ us, u < 2 ^ 7) :
    decodeRef us = groups 8 (7 * us.length / 8) (packed 7 us) (7 * us.length) := by
  rw [decodeRef, foldl_decodeRefUnit h]
  rfl

/-- `encode_ref` splits the stream of its bytes, filled up with zeros to whole units, into units
(spec/20_memory.md R52, spec/41_encode.md R134). -/
theorem encodeRef_eq_groups {bs : List Nat} {k z : Nat} (h : ∀ b ∈ bs, b < 2 ^ 8) (hz : z < 7)
    (hk : 8 * bs.length + z = 7 * k) :
    encodeRef bs = groups 7 k (packed 8 bs * 2 ^ z) (8 * bs.length + z) := by
  have hwhole (j : Nat) (hj : 7 * j ≤ 8 * bs.length) :
      groups 7 j (packed 8 bs * 2 ^ z) (8 * bs.length + z) =
        groups 7 j (packed 8 bs) (8 * bs.length) :=
    groups_append_bits (b := 0) (packed 8 bs) hj (by positivity)
  simp only [encodeRef, foldl_encodeRefByte h, regrouped]
  split
  next hpending =>
    have hlast : k = 8 * bs.length / 7 + 1 := by omega
    have hfill : 7 - 8 * bs.length % 7 = z := by omega
    have hunit : 8 * bs.length + z - 7 * (8 * bs.length / 7) = 7 := by omega
    rw [hlast, groups_add _ (by omega), hwhole _ (by omega), hfill, hunit, and_mask,
      Nat.shiftLeft_eq]
    simp [groups]
  next hnone =>
    rw [← hwhole _ (by omega), show k = 8 * bs.length / 7 by omega]

/-- Settles O46: the stream bits of the units are those of the zero-filled stream of bytes. -/
theorem encodeIsMsbFirst : Obligations.EncodeIsMsbFirst := by
  intro bs h
  have hbs : ∀ b ∈ bs, b < 2 ^ 8 := fun b hb => Nat.lt_succ_of_le (h b hb)
  obtain ⟨z, hz, hk⟩ : ∃ z < 7, 8 * bs.length + z = 7 * ((8 * bs.length + 6) / 7) :=
    ⟨7 * ((8 * bs.length + 6) / 7) - 8 * bs.length, by omega, by omega⟩
  rw [encodeRef_eq_groups hbs hz hk, groups_length]
  refine ⟨rfl, fun s hs => ?_⟩
  refine (streamBit_groups _ hk.ge hs).trans ?_
  rw [Nat.testBit_mul_two_pow]
  by_cases hin : s < 8 * bs.length
  · have hbit : 8 * bs.length + z - 1 - s - z = 8 * bs.length - 1 - s := by omega
    rw [hbit, packed_testBit hbs hin]
    simp [hin, show z ≤ 8 * bs.length + z - 1 - s by omega, streamBit]
  · simp [hin, show ¬ z ≤ 8 * bs.length + z - 1 - s by omega]

/-- Settles O47: the stream bits of the bytes are those of the stream of units. -/
theorem decodeIsMsbFirst : Obligations.DecodeIsMsbFirst := by
  intro us h
  have hus : ∀ u ∈ us, u < 2 ^ 7 := fun u hu => Nat.lt_succ_of_le (h u hu)
  have hwhole : 8 * (7 * us.length / 8) ≤ 7 * us.length := Nat.mul_div_le _ _
  rw [decodeRef_eq_groups hus, groups_length]
  exact ⟨rfl, fun s hs =>
    (streamBit_groups _ hwhole hs).trans (packed_testBit hus (hs.trans_le hwhole))⟩

end Sys2Proof.Machine

/-! ### Decode and encode are inverse on the well-formed commands -/

namespace Sys2Proof

theorem d64Begin_wellFormed_iff (k : Byte) : (Instr.d64Begin k).WellFormed ↔ k.toNat ≤ 7 :=
  decide_eq_true_iff

/-- Decoding a command's own opcode and `data` gives the command back unless D64.BEGIN's residue is too
wide, the one operand that R72 restricts. -/
theorem decodeOp_opcode_data_eq_command_iff (i : Instr) :
    decodeOp i.opcode i.data = .command i ↔ i.WellFormed := by
  cases i with
  | d64Begin k =>
    have hdecode : decodeOp (Instr.d64Begin k).opcode k =
        if k.extractLsb' 3 5 = 0 then .command (.d64Begin k) else .illegal .residueTooWide := rfl
    rw [d64Begin_wellFormed_iff, ← high_bits_zero_iff, Instr.data, hdecode]
    simp
  | encBegin | encEnd | decbBegin | decbEnd | d64End | dbufBegin | dbufEnd =>
    exact iff_of_true rfl rfl
  | encByte v | decbUnit v | d64Unit v | dbufUnit v => exact iff_of_true rfl rfl

/-- The decoder reads opcode and `data` back from the word of a command, whose `aux` is 0. -/
theorem decode_encode (i : Instr) : decode (encode i) = decodeOp i.opcode i.data := by
  rw [decode, if_pos (auxField_encode i), opField_encode, dataField_encode]

theorem decode_encode_eq_command_iff (i : Instr) :
    decode (encode i) = .command i ↔ i.WellFormed := by
  rw [decode_encode, decodeOp_opcode_data_eq_command_iff]

/-- The words that decode to a command: the command's own word, when it is well formed. -/
theorem decode_eq_command_iff (w : Word) (i : Instr) :
    decode w = .command i ↔ w = encode i ∧ i.WellFormed := by
  constructor
  · intro h
    have hw : w = encode i := Machine.eq_encode_of_decode h
    exact ⟨hw, (decode_encode_eq_command_iff i).1 (hw ▸ h)⟩
  · rintro ⟨rfl, hwf⟩
    exact (decode_encode_eq_command_iff i).2 hwf

theorem eq_encode_iff_toNat (w : Word) (i : Instr) :
    w = encode i ↔ w.toNat = i.opcode.toNat * 4096 + i.data.toNat := by
  rw [← encode_toNat, BitVec.toNat_inj]

/-- Settles O2, by reading the three fields back from the word of a command. -/
theorem decodeAndEncodeAreInverse : Obligations.DecodeAndEncodeAreInverse := by
  refine ⟨decode_encode_eq_command_iff, fun w i h => ?_⟩
  obtain ⟨hw, hwf⟩ := (decode_eq_command_iff w i).1 h
  exact ⟨hw.symm, hwf⟩

/-- Settles O3: a word decodes to a command exactly when it is the word of that well-formed command;
then one row of R75 per command. -/
theorem exactlyTheListedWordsDecode : Obligations.ExactlyTheListedWordsDecode := by
  intro w i
  rw [decode_eq_command_iff]
  cases i with
  | d64Begin k =>
    rw [eq_encode_iff_toNat, d64Begin_wellFormed_iff]
    simp [Instr.opcode, Instr.data, and_comm]
  | encBegin | encEnd | decbBegin | decbEnd | d64End | dbufBegin | dbufEnd =>
    simp [encode, Instr.opcode, Instr.data, Instr.WellFormed, Instr.wellFormed]
  | encByte v | decbUnit v | d64Unit v | dbufUnit v =>
    rw [eq_encode_iff_toNat]
    simp [Instr.opcode, Instr.data, Instr.WellFormed, Instr.wellFormed]

/-- Settles O1: the twelve words are those of their commands, and the decoder computes the verdict on
each of the five others. -/
theorem specWordsDecode : Obligations.SpecWordsDecode := by
  have hcommand (i : Instr) (h : i.WellFormed) : decode (encode i) = .command i :=
    (decode_encode_eq_command_iff i).2 h
  exact ⟨hcommand .encBegin rfl, hcommand (.encByte 0xA5) rfl, hcommand .encEnd rfl,
    hcommand .decbBegin rfl, hcommand (.decbUnit 0x40) rfl, hcommand .decbEnd rfl,
    hcommand (.d64Begin 5) rfl, hcommand (.d64Unit 0xFF) rfl, hcommand .d64End rfl,
    hcommand .dbufBegin rfl, hcommand (.dbufUnit 0x7F) rfl, hcommand .dbufEnd rfl,
    rfl, rfl, rfl, rfl, rfl⟩

/-- `word = (op << 12) | data` (spec/30_encoding.md R80), on 16-bit words. -/
theorem encode_eq_or (i : Instr) :
    encode i = BitVec.ofNat 16 (i.opcode.toNat <<< 12) ||| i.data.setWidth 16 := by
  rw [encode, BitVec.ofNat_or, BitVec.ofNat_toNat]

end Sys2Proof

/-! ### The words of the assembler -/

namespace Sys2Proof.Machine

/-- The operand of `decode.base64`'s BEGIN word is a residue modulo 8 (spec/30_encoding.md R85). -/
theorem residueOperand_toNat (n : Nat) : (BitVec.ofNat 8 (n % 8)).toNat = n % 8 := by
  rw [BitVec.toNat_ofNat]
  omega

/-- Settles O52: each expansion is the word of its BEGIN, of one command per operand and of its END. -/
theorem pseudoInstructionWords : Obligations.PseudoInstructionWords := by
  intro vs
  have hresidue : (BitVec.ofNat 8 (vs.length % 8)).setWidth 16 = BitVec.ofNat 16 (vs.length % 8) := by
    rw [← BitVec.ofNat_toNat, residueOperand_toNat]
  refine ⟨?_, ?_, ?_, ?_⟩
  · simp only [encodeWords, encode_eq_or]
    rfl
  · simp only [decodeBytesWords, encode_eq_or]
    rfl
  · simp only [decodeBase64Words, encode_eq_or, Instr.data, hresidue]
    rfl
  · simp only [decodeBufferWords, encode_eq_or]
    rfl

/-- A word that decodes to a command. -/
def IsCommandWord (w : Word) : Prop := ∃ i, decode w = .command i

theorem isCommandWord_encode {i : Instr} (h : i.WellFormed) : IsCommandWord (encode i) :=
  ⟨i, (decode_encode_eq_command_iff i).2 h⟩

/-- The words of a BEGIN, one command per operand and an END decode, if these commands are well formed. -/
theorem isCommandWord_of_mem_expansion {first last : Instr} {mk : Byte → Instr} (vs : List Byte)
    (hfirst : first.WellFormed) (hmk : ∀ v, (mk v).WellFormed) (hlast : last.WellFormed) :
    ∀ w ∈ encode first :: vs.map (fun v => encode (mk v)) ++ [encode last], IsCommandWord w := by
  intro w hw
  simp only [List.cons_append, List.mem_cons, List.mem_append, List.mem_map, List.not_mem_nil,
    or_false] at hw
  obtain rfl | ⟨v, _, rfl⟩ | rfl := hw
  · exact isCommandWord_encode hfirst
  · exact isCommandWord_encode (hmk v)
  · exact isCommandWord_encode hlast

/-- What a mnemonic stands for gives only command words, whatever bytes its operands are. -/
def AsmForm.Sound : AsmForm → Prop
  | .plain i => i.WellFormed
  | .byte mk => ∀ v, (mk v).WellFormed
  | .residue => True
  | .list expand => ∀ vs, ∀ w ∈ expand vs, IsCommandWord w

theorem asmForms_sound : ∀ entry ∈ asmForms, entry.2.Sound := by
  have hresidue (vs : List Byte) : (Instr.d64Begin (BitVec.ofNat 8 (vs.length % 8))).WellFormed := by
    rw [d64Begin_wellFormed_iff, residueOperand_toNat]
    omega
  simp only [asmForms, List.forall_mem_cons]
  exact ⟨rfl, fun _ => rfl, rfl, rfl, fun _ => rfl, rfl, trivial, fun _ => rfl, rfl, rfl, fun _ => rfl,
    rfl, fun vs => isCommandWord_of_mem_expansion vs rfl (fun _ => rfl) rfl,
    fun vs => isCommandWord_of_mem_expansion vs rfl (fun _ => rfl) rfl,
    fun vs => isCommandWord_of_mem_expansion vs (hresidue vs) (fun _ => rfl) rfl,
    fun vs => isCommandWord_of_mem_expansion vs rfl (fun _ => rfl) rfl, List.forall_mem_nil _⟩

theorem sound_of_lookup {name : List Char} {form : AsmForm}
    (h : asmForms.lookup name = some form) : form.Sound := by
  obtain ⟨before, after, hsplit, _⟩ := List.lookup_eq_some_iff.1 h
  exact asmForms_sound (name, form) (by rw [hsplit]; exact List.mem_append_cons_self)

/-- The assembler accepts an operand only in its range (spec/30_encoding.md R79). -/
theorem toNat_le_of_operand {max : Nat} {cs : List Char} {v : Byte} (h : operand max cs = .ok v) :
    v.toNat ≤ max := by
  unfold operand at h
  split at h
  next => cases h
  next n _ =>
    split at h
    next hle =>
      cases h
      exact (BitVec.toNat_ofNat n 8).trans_le ((Nat.mod_le n _).trans hle)
    next => cases h

theorem exists_of_map_eq_ok {ε α β : Type} {f : α → β} {x : Except ε α} {b : β}
    (h : x.map f = .ok b) : ∃ a, x = .ok a ∧ f a = b := by
  cases x with
  | error e => cases h
  | ok a => exact ⟨a, rfl, Except.ok.inj h⟩

/-- A sound form gives only command words from the operands it accepts. -/
theorem isCommandWord_of_assembleForm {form : AsmForm} {operands : List (List Char)} {ws : List Word}
    (hsound : form.Sound) (h : assembleForm form operands = .ok ws) : ∀ w ∈ ws, IsCommandWord w := by
  unfold assembleForm at h
  split at h
  next i =>
    cases h
    exact List.forall_mem_singleton.2 (isCommandWord_encode hsound)
  next => cases h
  next mk cs =>
    obtain ⟨v, _, rfl⟩ := exists_of_map_eq_ok h
    exact List.forall_mem_singleton.2 (isCommandWord_encode (hsound v))
  next => cases h
  next cs =>
    obtain ⟨k, hk, rfl⟩ := exists_of_map_eq_ok h
    have hwf := (d64Begin_wellFormed_iff k).2 (toNat_le_of_operand hk)
    exact List.forall_mem_singleton.2 (isCommandWord_encode hwf)
  next => cases h
  next expand operands =>
    obtain ⟨vs, _, rfl⟩ := exists_of_map_eq_ok h
    exact hsound vs

theorem isCommandWord_of_assembleLine {line : List Char} {ws : List Word}
    (h : assembleLine line = .ok ws) : ∀ w ∈ ws, IsCommandWord w := by
  unfold assembleLine at h
  dsimp only at h
  split at h
  next => cases h
  next =>
    split at h
    next => cases h
    next form hform => exact isCommandWord_of_assembleForm (sound_of_lookup hform) h

theorem isCommandWord_of_assembleFrom {n : Nat} {lines : List (List Char)} {ws : List Word}
    (h : assembleFrom n lines = .ok ws) : ∀ w ∈ ws, IsCommandWord w := by
  induction lines generalizing n ws with
  | nil =>
    cases h
    exact List.forall_mem_nil _
  | cons line lines ih =>
    unfold assembleFrom at h
    split at h
    next => cases h
    next lineWords hline =>
      obtain ⟨restWords, hrest, rfl⟩ := exists_of_map_eq_ok h
      exact List.forall_mem_append.2 ⟨isCommandWord_of_assembleLine hline, ih hrest⟩

/-- Settles O51: every form of the mnemonic table is sound, so every accepted line gives command words;
then by induction on the lines. -/
theorem assemblerProducesNoIllegalWord : Obligations.AssemblerProducesNoIllegalWord :=
  fun _ _ h => isCommandWord_of_assembleFrom h

end Sys2Proof.Machine

/-! ### A step on a command word -/

namespace Sys2Proof.Machine

/-- A step with a command word at the head of the port runs it past the port (spec/40_accumulator.md
R100). -/
theorem step_command {s : State} {w : Word} {rest : List HostEvent}
    (h : s.input = .command w :: rest) : step s = runWord w (takeWord rest s) := by
  rw [step, takeEvent, h]

theorem runWord_command {w : Word} {i : Instr} (s : State) (h : decode w = .command i) :
    runWord w s = exec i s := by
  rw [runWord, h]

theorem runWord_illegal {w : Word} {why : Illegal} (s : State) (h : decode w = .illegal why) :
    runWord w s = .next (illegalCommand w s) := by
  rw [runWord, h]

/-- Settles O5: a step runs the word at the head of the port, which is a command or illegal. -/
theorem stepRunsTheDecodedCommand : Obligations.StepRunsTheDecodedCommand :=
  fun s _ rest h =>
    ⟨fun _ hd => (step_command h).trans (runWord_command (takeWord rest s) hd),
      fun _ hd => (step_command h).trans (runWord_illegal (takeWord rest s) hd)⟩

/-- Settles O6: running a word is `issue` for the machine's own parameters. -/
theorem stepIssuesTheWord : Obligations.StepIssuesTheWord :=
  fun s w rest h => (step_command h).trans (runWord_eq_issue w (takeWord rest s))

/-! ### The BEGIN commands in IDLE -/

section Begin

variable {s : State}

/-- The common step of a command that raises no fault of its own. -/
theorem runCommand_ok {i : Instr} {required : Mode} {f : State → Except FaultCode State} {t : State}
    (hf : s.fault = .noFault) (hm : s.mode = required) (h : f s = .ok t) :
    runCommand i required f s = t := by
  rw [runCommand_runs hf hm, h, conclude_ok]

theorem encBegin_idle (hf : s.fault = .noFault) (hm : s.mode = .idle) :
    encBegin s = init .enc 0 s := runCommand_ok hf hm rfl

theorem decbBegin_idle (hf : s.fault = .noFault) (hm : s.mode = .idle) :
    decbBegin s = init .decb 0 s := runCommand_ok hf hm rfl

theorem dbufBegin_idle (hf : s.fault = .noFault) (hm : s.mode = .idle) :
    dbufBegin s = init .dbuf 0 (withdrawBuf s) := runCommand_ok hf hm rfl

/-- P of a declared residue `k` is `8 - k` modulo 8: `7 * k` and `8 - k` agree modulo 8
(spec/43_decode_base64.md R171). -/
theorem paddingOf_residue_eq {k : Byte} (hk : k.toNat ≤ 7) :
    paddingOf (residue k) = BitVec.ofNat 3 ((8 - k.toNat) % 8) := by
  apply BitVec.eq_of_toNat_eq
  rw [paddingOf_residue hk, BitVec.toNat_ofNat]
  omega

theorem d64Begin_idle (hf : s.fault = .noFault) (hm : s.mode = .idle) {k : Byte} (hk : k.toNat ≤ 7) :
    d64Begin k s = init .d64 (BitVec.ofNat 3 ((8 - k.toNat) % 8)) s := by
  rw [d64Begin, if_pos hk, ← paddingOf_residue_eq hk]
  exact runCommand_ok hf hm rfl

end Begin

/-- Settles O14: each BEGIN command is INIT with its mode and its P. -/
theorem beginCommandsStartATransaction : Obligations.BeginCommandsStartATransaction := fun _ hf hm =>
  ⟨congrArg Host.Outcome.next (encBegin_idle hf hm),
    congrArg Host.Outcome.next (decbBegin_idle hf hm),
    congrArg Host.Outcome.next (dbufBegin_idle hf hm),
    fun _ hk => congrArg Host.Outcome.next (d64Begin_idle hf hm hk)⟩

/-! ### Where BUFMEM is stored -/

/-- A command that completes stores at index OCNT or nowhere (spec/40_accumulator.md R109). -/
theorem Completed.read_of_ne_ocnt {c : Config.Params} {i : Instr} {s t : State}
    (h : Completed c i s t) {a : Nat} (ha : a ≠ s.ocnt.toNat) :
    t.bufmem.read a = s.bufmem.read a := by
  cases h with
  | write u v => exact Memory.read_write_other s.bufmem v ha
  | _ => rfl

theorem effect_read_of_ne_ocnt (c : Config.Params) (i : Instr) (s : State) {a : Nat}
    (ha : a ≠ s.ocnt.toNat) : (effect c i s).bufmem.read a = s.bufmem.read a := by
  rcases effect_cases c i s with ⟨_, h⟩ | ⟨_, f, _, h⟩ | ⟨_, _, _, h⟩
  · rw [h]
  · rw [h, raise_bufmem]
  · exact h.read_of_ne_ocnt ha

/-- Settles O29: of everything a command can do, only DBUF.UNIT's write at OCNT reaches BUFMEM. -/
theorem dbufUnitStoresOnlyAtOcnt : Obligations.DbufUnitStoresOnlyAtOcnt := by
  intro u s t h a ha
  rw [exec_eq_effect] at h
  cases h
  exact effect_read_of_ne_ocnt Config.params (.dbufUnit u) s ha

/-! ### The frame of the END commands -/

/-- What a commit by the END command `i` does to the block and to the model's own `bufResult`
(spec/40_accumulator.md R112, log entry 21). -/
def Commits (i : Instr) (s t : State) : Prop :=
  t.mode = .idle ∧ t.done = true ∧ t.acc = 0 ∧ t.len = 0 ∧ t.p = 0 ∧ t.fault = s.fault ∧
  t.fcmd = s.fcmd ∧ s.outq <+: t.outq ∧
  t.bufResult = (if i = .dbufEnd then s.ocnt.toNat else s.bufResult) ∧
  (i ∈ [.decbEnd, .dbufEnd] → t.outq = s.outq ∧ t.ocnt = s.ocnt)

/-- What an END command that does not commit keeps of the open transaction. -/
def KeepsOpen (s t : State) : Prop :=
  t.mode = s.mode ∧ t.acc = s.acc ∧ t.len = s.len ∧ t.p = s.p ∧ t.ocnt = s.ocnt ∧
  t.bufResult = s.bufResult

theorem KeepsOpen.refl (s : State) : KeepsOpen s s := ⟨rfl, rfl, rfl, rfl, rfl, rfl⟩

/-- A fault record leaves the transaction as it stood before the command (spec/60_exceptions.md R228). -/
theorem keepsOpen_raise (f : FaultCode) (w : Word) (s : State) : KeepsOpen s (raise f w s) :=
  ⟨rfl, rfl, rfl, rfl, rfl, rfl⟩

/-- Symbols put out before a commit are the only change besides it; DECB.END puts out none. -/
theorem commits_pushSymbols {i : Instr} (vs : List Byte) (s : State) (hne : i ≠ .dbufEnd)
    (hvs : i = .decbEnd → vs = []) : Commits i s (commit (pushSymbols vs s)) := by
  refine ⟨rfl, rfl, rfl, rfl, rfl, rfl, rfl, ⟨vs, rfl⟩, (if_neg hne).symm, fun hi => ?_⟩
  have hd : i = .decbEnd := by simpa [hne] using hi
  rw [hvs hd, pushSymbols_nil]
  exact ⟨rfl, rfl⟩

theorem commits_publishBuf (s : State) : Commits .dbufEnd s (commit (publishBuf s)) :=
  ⟨rfl, rfl, rfl, rfl, rfl, rfl, rfl, ⟨[], List.append_nil _⟩, rfl, fun _ => ⟨rfl, rfl⟩⟩

/-- An END command that completes is a commit, and it keeps ICNT. -/
theorem Completed.end_frame {c : Config.Params} {i : Instr} {s t : State} (h : Completed c i s t)
    (hi : i ∈ [.encEnd, .decbEnd, .d64End, .dbufEnd]) : t.icnt = s.icnt ∧ Commits i s t := by
  cases h with
  | finish vs h =>
    refine ⟨rfl, commits_pushSymbols vs s ?_ ?_⟩ <;> rcases h with (rfl | rfl) | ⟨rfl, rfl⟩ <;> simp
  | finishBuf => exact ⟨rfl, commits_publishBuf s⟩
  | start _ _ h => rcases h with rfl | rfl | ⟨k, rfl⟩ <;> simp at hi
  | element _ _ _ h => rcases h with ⟨b, rfl⟩ | ⟨u, rfl⟩ | ⟨u, rfl⟩ <;> simp at hi
  | startBuf | keep | write => simp at hi

/-- An END command in any state keeps ICNT and the port, and commits or keeps the open transaction. -/
theorem effect_end_frame (c : Config.Params) {i : Instr} (s : State)
    (hi : i ∈ [.encEnd, .decbEnd, .d64End, .dbufEnd]) :
    (effect c i s).icnt = s.icnt ∧ (effect c i s).input = s.input ∧ (effect c i s).pos = s.pos ∧
    (Commits i s (effect c i s) ∨ KeepsOpen s (effect c i s)) := by
  rcases effect_cases c i s with ⟨_, h⟩ | ⟨_, f, _, h⟩ | ⟨_, _, _, h⟩
  · rw [h]
    exact ⟨rfl, rfl, rfl, .inr (.refl s)⟩
  · rw [h]
    exact ⟨rfl, rfl, rfl, .inr (keepsOpen_raise f _ s)⟩
  · obtain ⟨hinput, hpos⟩ := h.port
    obtain ⟨hicnt, hcommit⟩ := h.end_frame hi
    exact ⟨hicnt, hinput, hpos, .inl hcommit⟩

/-- Settles O31, by the frame of an END command that is ignored, faults or commits. -/
theorem endCommandsKeepTheRest : Obligations.EndCommandsKeepTheRest := by
  intro i s t h hi
  rw [exec_eq_effect] at h
  cases h
  exact effect_end_frame Config.params s hi

end Sys2Proof.Machine

/-! ### The lengths of the reference functions -/

namespace Sys2Proof.Machine

/-- The loop of the source loses no bit: what leaves the window is in the output. -/
theorem refDrain_bits {threshold n : Nat} (h : n ≤ threshold) (symbol : Nat → Nat) (fuel : Nat)
    (r : RefState) :
    n * (refDrain threshold n symbol fuel r).out.length + (refDrain threshold n symbol fuel r).len =
      n * r.out.length + r.len := by
  have hpasses := mul_passes_le h fuel r.len
  rw [refDrain_eq h]
  simp only [List.length_append, List.length_map, groups_length, Nat.mul_add]
  omega

/-- `encode_ref` after all bytes: whole units are out, fewer than 7 bits are pending. -/
theorem encodeRef_lengths (bs : List Nat) :
    7 * (bs.foldl encodeRefByte ⟨0, 0, []⟩).out.length + (bs.foldl encodeRefByte ⟨0, 0, []⟩).len =
      8 * bs.length ∧
    (bs.foldl encodeRefByte ⟨0, 0, []⟩).len ≤ 6 := by
  induction bs using List.reverseRecOn with
  | nil => simp
  | append_singleton bs b ih =>
    rw [List.foldl_concat, List.length_append, List.length_singleton]
    generalize bs.foldl encodeRefByte ⟨0, 0, []⟩ = r at ih ⊢
    obtain ⟨hbits, hlen⟩ := ih
    refine ⟨(refDrain_bits le_rfl _ _ _).trans ?_, ?_⟩
    · change 7 * r.out.length + (r.len + 8) = 8 * (bs.length + 1)
      omega
    · rw [encodeRefByte, refDrain_eq le_rfl, passes_seven (by omega) (by omega)]
      change r.len + 8 - 7 * ((r.len + 8) / 7) ≤ 6
      omega

/-- `decode_ref` after all units: whole bytes are out, fewer than 8 bits are pending. -/
theorem decodeRef_lengths (us : List Nat) :
    8 * (us.foldl decodeRefUnit ⟨0, 0, []⟩).out.length + (us.foldl decodeRefUnit ⟨0, 0, []⟩).len =
      7 * us.length ∧
    (us.foldl decodeRefUnit ⟨0, 0, []⟩).len ≤ 7 := by
  induction us using List.reverseRecOn with
  | nil => simp
  | append_singleton us u ih =>
    rw [List.foldl_concat, List.length_append, List.length_singleton]
    generalize us.foldl decodeRefUnit ⟨0, 0, []⟩ = r at ih ⊢
    obtain ⟨hbits, hlen⟩ := ih
    dsimp only [decodeRefUnit]
    split <;> dsimp only
    next =>
      rw [List.length_append, List.length_singleton]
      omega
    next => omega

/-- `decode64_ref` after all units, with `p ≤ 7` padding bits: the characters out and the bits pending,
which hold the padding once a unit came in (spec/43_decode_base64.md R177). -/
theorem decode64Ref_lengths {p : Nat} (hp : p ≤ 7) (us : List Nat) :
    6 * (us.foldl (decode64RefUnit p) ⟨0, 0, []⟩).out.length +
      (us.foldl (decode64RefUnit p) ⟨0, 0, []⟩).len = 7 * us.length ∧
    (us.foldl (decode64RefUnit p) ⟨0, 0, []⟩).len ≤ 5 + p ∧
    (us ≠ [] → p ≤ (us.foldl (decode64RefUnit p) ⟨0, 0, []⟩).len) := by
  induction us using List.reverseRecOn with
  | nil => simp
  | append_singleton us u ih =>
    rw [List.foldl_concat, List.length_append, List.length_singleton]
    generalize us.foldl (decode64RefUnit p) ⟨0, 0, []⟩ = r at ih ⊢
    obtain ⟨hbits, hlen, _⟩ := ih
    have hpending : (decode64RefUnit p r u).len = r.len + 7 - 6 * ((r.len + 7 - p) / 6) := by
      rw [decode64RefUnit, refDrain_eq (by omega), passes_six (by omega) hp]
    refine ⟨(refDrain_bits (by omega) _ _ _).trans ?_, by omega, fun _ => by omega⟩
    change 6 * r.out.length + (r.len + 7) = 7 * (us.length + 1)
    omega

theorem refPad_length (out : List Nat) : (refPad out).length = 4 * ((out.length + 3) / 4) := by
  rw [refPad, List.length_append, List.length_replicate]
  omega

/-- Three bytes are four whole characters; a last group of one or two bytes is rounded up
(spec/43_decode_base64.md R176). -/
theorem paddedLength_of_bits {k pending m : Nat} (h : 6 * k + pending = 8 * m) (hp : pending ≤ 5) :
    (k + (if 0 < pending then 1 else 0) + 3) / 4 = (m + 2) / 3 := by
  obtain hm | hm | hm : m % 3 = 0 ∨ m % 3 = 1 ∨ m % 3 = 2 := by omega
  all_goals split <;> omega

theorem encodeRef_length (bs : List Nat) : (encodeRef bs).length = (8 * bs.length + 6) / 7 := by
  obtain ⟨hbits, hlen⟩ := encodeRef_lengths bs
  dsimp only [encodeRef]
  split
  next =>
    rw [List.length_append, List.length_singleton]
    omega
  next => omega

theorem decodeRef_length (us : List Nat) : (decodeRef us).length = 7 * us.length / 8 := by
  obtain ⟨hbits, hlen⟩ := decodeRef_lengths us
  rw [decodeRef]
  omega

theorem decode64Ref_length (us : List Nat) :
    (decode64Ref us).length = 4 * ((7 * us.length / 8 + 2) / 3) := by
  obtain ⟨hbits, hlen, hdrop⟩ :=
    decode64Ref_lengths (p := us.length * 7 % 8) (by omega) us
  dsimp only [decode64Ref]
  generalize us.foldl (decode64RefUnit (us.length * 7 % 8)) ⟨0, 0, []⟩ = r at hbits hlen hdrop ⊢
  have hpadding : us.length * 7 % 8 ≤ r.len := by
    by_cases h : us = []
    · simp [h]
    · exact hdrop h
  rw [refPad_length, ← paddedLength_of_bits (k := r.out.length)
    (pending := r.len - us.length * 7 % 8) (by omega) (by omega)]
  split
  next => rw [List.length_append, List.length_singleton]
  next => rfl

/-- Settles O48: each reference function loses no bit, and few bits stay pending. -/
theorem lengthLaws : Obligations.LengthLaws :=
  ⟨encodeRef_length, decodeRef_length, decode64Ref_length⟩

end Sys2Proof.Machine

/-! ### Elements and ENC.END as emissions -/

namespace Sys2Proof.Machine

/-- The symbols that leave the window in `n`-bit groups once `w` bits, the number `x`, came in. -/
def groupsOut (w n x : Nat) (s : State) : List Byte :=
  (groups n ((s.len.toNat + w) / n) (s.acc.toNat * 2 ^ w + x) (s.len.toNat + w)).map (BitVec.ofNat 8)

/-- The window that these symbols leave. -/
def bitsKept (w n x : Nat) (s : State) : State :=
  setWindow ((s.acc.toNat * 2 ^ w + x) % 2 ^ ((s.len.toNat + w) % n)) ((s.len.toNat + w) % n) s

@[simp] theorem groupsOut_length (w n x : Nat) (s : State) :
    (groupsOut w n x s).length = (s.len.toNat + w) / n := by
  simp [groupsOut]

/-- An element command that completed (spec/41_encode.md R131, spec/42_decode_bytes.md R151). -/
def absorbed (w n x : Nat) (s : State) : State :=
  accept (pushSymbols (groupsOut w n x s) (bitsKept w n x s))

/-- With room for its symbols a command that emits completes. -/
theorem conclude_emitList_of_roomFor {c : Config.Params} {s : State} {vs : List Byte} {a l : Nat}
    {k : State → State} (w : Word) (h : roomFor c s vs.length) :
    conclude w s ((emitList c vs (setWindow a l s)).map k) = k (pushSymbols vs (setWindow a l s)) := by
  rw [emitList_ok ((roomFor_setWindow c a l vs.length s).2 h)]
  rfl

/-- Without room for all of them it leaves OutputOverflow's record (spec/60_exceptions.md R225). -/
theorem conclude_emitList_of_not_roomFor {c : Config.Params} {s : State} {vs : List Byte} {a l : Nat}
    {k : State → State} (w : Word) (h0 : roomFor c s 0) (h : ¬ roomFor c s vs.length) :
    conclude w s ((emitList c vs (setWindow a l s)).map k) = raise .outputOverflow w s := by
  rw [emitList_error ((roomFor_setWindow c a l 0 s).2 h0)
    (mt (roomFor_setWindow c a l vs.length s).1 h)]
  rfl

/-- ENC.BYTE as one emission (spec/41_encode.md R131). -/
theorem encByte_emits {c : Config.Params} {s : State} (b : Byte) (hf : s.fault = .noFault)
    (hm : s.mode = .enc) (hl : s.len.toNat ≤ 6) (ha : s.acc.toNat < 2 ^ s.len.toNat) :
    encByte c b s = conclude (encode (.encByte b)) s
      ((emitList c (groupsOut 8 7 b.toNat s) (bitsKept 8 7 b.toNat s)).map accept) := by
  rw [encByte_runs c b s hf hm hl ha, ← Nat.mod_eq_sub_div_mul]
  rfl

/-- The last unit of ENC.END: the remaining bits, zero-filled at the low end
(spec/40_accumulator.md R104). -/
def lastUnit (s : State) : List Byte :=
  if 0 < s.len.toNat then [BitVec.ofNat 8 (s.acc.toNat * 2 ^ (7 - s.len.toNat))] else []

theorem lastUnit_eq (s : State) : lastUnit s =
    if s.len = 0 then [] else [BitVec.ofNat 8 (s.acc.toNat * 2 ^ (7 - s.len.toNat))] := by
  rw [lastUnit, ← ite_not]
  simp [Nat.pos_iff_ne_zero, ← BitVec.toNat_inj]

theorem lastUnit_length (s : State) : (lastUnit s).length = if s.len = 0 then 0 else 1 := by
  rw [lastUnit_eq]
  split <;> rfl

/-- Settles O15: the byte's units go out and the rest of the window stays. -/
theorem encByteResult : Obligations.EncByteResult := by
  intro b s hf hm hl ha
  have hresult (c : Config.Params) (hroom : roomFor c s ((s.len.toNat + 8) / 7)) :
      effect c (.encByte b) s = absorbed 8 7 b.toNat s :=
    (encByte_emits b hf hm hl ha).trans
      (conclude_emitList_of_roomFor _ ((groupsOut_length 8 7 b.toNat s).symm ▸ hroom))
  refine ⟨absorbed 8 7 b.toNat s, ?_, fun hroom => ?_, hresult⟩
  · rw [← Nat.mod_eq_sub_mul_div]
    simp only [absorbed, accept, pushSymbols, groupsOut_length]
    simp only [groupsOut, groups_eq (Nat.mul_div_le _ 7), List.map_map]
    rfl
  · rw [exec_eq_effect, hresult _ hroom]

/-- Settles O16: the last unit goes out if bits remain, then the commit. -/
theorem encEndResult : Obligations.EncEndResult := by
  intro s hf hm hl ha
  have hresult (c : Config.Params) (hroom : roomFor c s (if s.len = 0 then 0 else 1)) :
      effect c .encEnd s = commit (pushSymbols (lastUnit s) s) :=
    (encEnd_runs c s hf hm hl ha).trans
      (conclude_emitList_of_roomFor _ ((lastUnit_length s).symm ▸ hroom))
  refine ⟨commit (pushSymbols (lastUnit s) s), ?_, fun hroom => ?_, hresult⟩
  · simp only [commit, pushSymbols, lastUnit_length]
    rw [lastUnit_eq]
    split <;> rfl
  · rw [exec_eq_effect, hresult _ hroom]

end Sys2Proof.Machine

/-! ### Runs of a BEGIN command and its elements -/

namespace Sys2Proof.Machine

/-- The state after a BEGIN command and one element command per operand. -/
def afterElements (c : Config.Params) (first : Instr) (mk : Byte → Instr) (xs : List Byte) (s : State) :
    State :=
  runWords c (encode first :: xs.map (fun x => encode (mk x))) s

theorem issue_encode (c : Config.Params) {i : Instr} (h : i.WellFormed) (s : State) :
    issue c (encode i) s = effect c i s := by
  rw [issue, (decode_encode_eq_command_iff i).2 h]

theorem runWords_concat (c : Config.Params) (ws : List Word) (w : Word) (s : State) :
    runWords c (ws ++ [w]) s = issue c w (countWord (runWords c ws s)) :=
  List.foldl_concat ..

theorem afterElements_nil (c : Config.Params) {first : Instr} (mk : Byte → Instr) (s : State)
    (h : first.WellFormed) : afterElements c first mk [] s = effect c first (countWord s) :=
  issue_encode c h _

theorem afterElements_concat (c : Config.Params) (first : Instr) {mk : Byte → Instr}
    (xs : List Byte) (x : Byte) (s : State) (h : (mk x).WellFormed) :
    afterElements c first mk (xs ++ [x]) s =
      effect c (mk x) (countWord (afterElements c first mk xs s)) := by
  rw [afterElements, List.map_append, List.map_singleton, ← List.cons_append, runWords_concat,
    issue_encode c h]
  rfl

/-- A fault recorded before a command is still recorded after it (spec/60_exceptions.md R229). -/
theorem fault_before_of_effect {c : Config.Params} {i : Instr} {s : State}
    (h : (effect c i s).fault = .noFault) : s.fault = .noFault := by
  by_contra hf
  exact hf (effect_ignored c i s hf ▸ h)

/-- A unit that leaves no fault is below 128 (spec/60_exceptions.md R224). -/
theorem unit_le_of_runCommand {i : Instr} {required : Mode} {u : Byte}
    {f : State → Except FaultCode State} {s : State}
    (h : (runCommand i required (fun t => do checkUnit u; f t) s).fault = .noFault) :
    u.toNat ≤ 127 := by
  by_contra hu
  rcases runCommand_cases i required (fun t => do checkUnit u; f t) s with
    ⟨hf, he⟩ | ⟨_, _, he⟩ | ⟨hf, hm, _⟩ | ⟨hf, hm, _⟩
  · exact hf (he ▸ h)
  · simp [he] at h
  all_goals
    rw [runCommand_checkUnit_raises f hf hm hu] at h
    cases h

/-- A run without a fault has met only units below 128, if the element command checks its unit. -/
theorem units_le_of_afterElements {c : Config.Params} {first : Instr} {mk : Byte → Instr}
    {us : List Byte} {s : State} (hwf : ∀ u, (mk u).WellFormed)
    (hcheck : ∀ u t, (effect c (mk u) t).fault = .noFault → u.toNat ≤ 127)
    (h : (afterElements c first mk us s).fault = .noFault) : ∀ u ∈ us, u.toNat ≤ 127 := by
  induction us using List.reverseRecOn with
  | nil => exact List.forall_mem_nil _
  | append_singleton us u ih =>
    rw [afterElements_concat c first us u s (hwf u)] at h
    exact List.forall_mem_append.2 ⟨ih (fault_before_of_effect (s := countWord _) h),
      List.forall_mem_singleton.2 (hcheck u _ h)⟩

/-! ### An open transaction and the stream of its elements -/

/-- A transaction of MODE `m` is open without a fault, and its window holds the bits of the stream of
`w`-bit elements `xs` past the last whole `n`-bit group. -/
structure WindowHolds (m : Mode) (w n : Nat) (xs : List Byte) (t : State) : Prop where
  fault : t.fault = .noFault
  mode : t.mode = m
  len : t.len.toNat = w * xs.length % n
  acc : t.acc.toNat = packed w (xs.map BitVec.toNat) % 2 ^ (w * xs.length % n)

/-- Besides, OUTQ holds the whole groups, as `encode_ref` and `decode_ref` put them out, and OCNT counts
them. -/
structure Streams (m : Mode) (w n : Nat) (xs : List Byte) (t : State) : Prop
    extends WindowHolds m w n xs t where
  outq : t.outq.map BitVec.toNat = (regrouped w n (xs.map BitVec.toNat)).out
  counts : CountsOutq t

theorem regrouped_len (w n : Nat) (ys : List Nat) :
    (regrouped w n ys).len = w * ys.length % n := rfl

/-- Bits dropped above a window stay dropped when more bits come in. -/
theorem mod_two_pow_shift {a l w x : Nat} (hx : x < 2 ^ w) :
    a % 2 ^ l * 2 ^ w + x = (a * 2 ^ w + x) % 2 ^ (l + w) := by
  rw [Nat.pow_add, Nat.mul_comm (2 ^ l), Nat.mod_mul, Nat.mul_comm a, Nat.mul_add_mod,
    Nat.mod_eq_of_lt hx, Nat.mul_add_div (by positivity), Nat.div_eq_of_lt hx,
    Nat.add_zero, Nat.add_comm, Nat.mul_comm]

section
variable {m : Mode} {w n : Nat} {xs : List Byte} {t : State}

theorem WindowHolds.countWord (h : WindowHolds m w n xs t) : WindowHolds m w n xs (countWord t) :=
  ⟨h.fault, h.mode, h.len, h.acc⟩

theorem Streams.countWord (h : Streams m w n xs t) : Streams m w n xs (countWord t) :=
  ⟨h.toWindowHolds.countWord, h.outq, h.counts⟩

theorem WindowHolds.accBelow (h : WindowHolds m w n xs t) : t.acc.toNat < 2 ^ t.len.toNat := by
  rw [h.acc, h.len]
  exact Nat.mod_lt _ (by positivity)

theorem WindowHolds.len_lt (h : WindowHolds m w n xs t) (hn : 0 < n) : t.len.toNat < n :=
  h.len ▸ Nat.mod_lt _ hn

theorem Streams.outq_length (h : Streams m w n xs t) : t.outq.length = w * xs.length / n := by
  have := congrArg List.length h.outq
  rwa [List.length_map, regrouped, groups_length, List.length_map] at this

theorem windowHolds_init {s : State} (hf : s.fault = .noFault) (q : BitVec 3) :
    WindowHolds m w n [] (init m q s) :=
  ⟨hf, rfl, by simp, by simp⟩

theorem streams_init {s : State} (hf : s.fault = .noFault) (q : BitVec 3) :
    Streams m w n [] (init m q s) :=
  ⟨windowHolds_init hf q, by simp [regrouped, groups], rfl⟩

/-- The window after SHIFT_IN of one more element holds the end of the longer stream. -/
theorem WindowHolds.shifted (h : WindowHolds m w n xs t) {x : Byte} (hx : x.toNat < 2 ^ w) :
    t.acc.toNat * 2 ^ w + x.toNat =
      packed w ((xs ++ [x]).map BitVec.toNat) % 2 ^ (t.len.toNat + w) := by
  rw [List.map_append, List.map_singleton, packed_concat, h.acc, mod_two_pow_shift hx, h.len]

theorem bitsKept_len (hn : 0 < n) (hn' : n ≤ 8) (x : Nat) :
    (bitsKept w n x t).len.toNat = (t.len.toNat + w) % n :=
  setWindow_len_toNat _ t (by have := Nat.mod_lt (t.len.toNat + w) hn; omega)

theorem bitsKept_acc (hn : 0 < n) (hn' : n ≤ 8) (x : Nat) :
    (bitsKept w n x t).acc.toNat = (t.acc.toNat * 2 ^ w + x) % 2 ^ ((t.len.toNat + w) % n) :=
  setWindow_acc_toNat t (Nat.mod_lt _ (by positivity))
    (by have := Nat.mod_lt (t.len.toNat + w) hn; omega)

/-- What one more element leaves in the window is the end of the longer stream, whatever became of the
groups before it. -/
theorem WindowHolds.concat (h : WindowHolds m w n xs t) (hn : 0 < n) (hn' : n ≤ 8) {x : Byte}
    (hx : x.toNat < 2 ^ w) {u : State} (hfault : u.fault = t.fault) (hmode : u.mode = t.mode)
    (hlen : u.len = (bitsKept w n x.toNat t).len) (hacc : u.acc = (bitsKept w n x.toNat t).acc) :
    WindowHolds m w n (xs ++ [x]) u := by
  have hbits : (t.len.toNat + w) % n = w * (xs ++ [x]).length % n := by
    rw [h.len, Nat.mod_add_mod, List.length_append, List.length_singleton, Nat.mul_succ]
  refine ⟨hfault.trans h.fault, hmode.trans h.mode, ?_, ?_⟩
  · rw [hlen, bitsKept_len hn hn', hbits]
  · rw [hacc, bitsKept_acc hn hn', h.shifted hx, mod_two_pow_mod (Nat.mod_le _ n), hbits]

/-- Groups of at most 8 bits are symbols of OUTQ. -/
theorem groupsOut_toNat (hn : n ≤ 8) (x : Nat) :
    (groupsOut w n x t).map BitVec.toNat =
      groups n ((t.len.toNat + w) / n) (t.acc.toNat * 2 ^ w + x) (t.len.toNat + w) := by
  rw [groupsOut, List.map_map]
  refine (List.map_congr_left fun y hy => ?_).trans (List.map_id _)
  have hy : y < 2 ^ 8 := (lt_of_mem_groups hy).trans_le (Nat.pow_le_pow_right (by omega) hn)
  exact Nat.mod_eq_of_lt hy

/-- An element command that completes puts out what one more element brings to the output. -/
theorem Streams.concat (h : Streams m w n xs t) (hn : 0 < n) (hn' : n ≤ 8) {x : Byte}
    (hx : x.toNat < 2 ^ w) : Streams m w n (xs ++ [x]) (absorbed w n x.toNat t) where
  toWindowHolds := h.toWindowHolds.concat hn hn' hx rfl rfl rfl rfl
  outq := by
    have hout : (absorbed w n x.toNat t).outq = t.outq ++ groupsOut w n x.toNat t := rfl
    rw [hout, List.map_append, h.outq, groupsOut_toNat hn', h.shifted hx,
      groups_mod _ (Nat.mul_div_le _ _), h.len, List.map_append, List.map_singleton,
      regrouped_concat n _ hx, regrouped_len, List.length_map, packed_concat]
  counts := countsOutq_element h.counts _ _ _

end

/-! ### Transactions whose elements emit -/

/-- An empty OUTQ has room for `k` symbols (spec/10_state.md R33). -/
def OutqHolds (c : Config.Params) (k : Nat) : Prop := ∀ n, c.outqCap = some n → k ≤ (n : Nat)

theorem roomFor_iff_outqHolds (c : Config.Params) (s : State) (k : Nat) :
    roomFor c s k ↔ OutqHolds c (s.outq.length + k) := Iff.rfl

theorem OutqHolds.mono {c : Config.Params} {j k : Nat} (h : OutqHolds c k) (hjk : j ≤ k) :
    OutqHolds c j := fun n hn => hjk.trans (h n hn)

theorem not_outqHolds_iff (c : Config.Params) (k : Nat) :
    ¬ OutqHolds c k ↔ ∃ n, c.outqCap = some n ∧ (n : Nat) < k := by
  simp [OutqHolds]

/-- A run that ended in OutputOverflow. -/
def Overflowed (t : State) : Prop := t.fault = .outputOverflow ∧ t.outq = []

theorem overflowed_raise (w : Word) (s : State) : Overflowed (raise .outputOverflow w s) := ⟨rfl, rfl⟩

/-- No later command changes that (spec/60_exceptions.md R229, R230). -/
theorem Overflowed.after_effect {t : State} (h : Overflowed t) (c : Config.Params) (i : Instr) :
    Overflowed (effect c i (countWord t)) := by
  rw [effect_ignored c i _ (by simp [h.1])]
  exact h

/-- In MODE `m` and within its bounds the command `i` takes in the `w`-bit element `x` and emits the
whole `n`-bit groups of the window. -/
def EmitsGroups (c : Config.Params) (m : Mode) (w n : Nat) (i : Instr) (x : Byte) : Prop :=
  ∀ t : State, t.fault = .noFault → t.mode = m → t.len.toNat < n → t.acc.toNat < 2 ^ t.len.toNat →
    effect c i t = conclude (encode i) t
      ((emitList c (groupsOut w n x.toNat t) (bitsKept w n x.toNat t)).map accept)

theorem encByte_emitsGroups (c : Config.Params) (b : Byte) : EmitsGroups c .enc 8 7 (.encByte b) b :=
  fun _ hf hm hl ha => encByte_emits b hf hm (Nat.le_of_lt_succ hl) ha

/-- A 7-bit unit that finds a pending bit drives one byte out of the window. -/
theorem bitsKept_of_pending (u : Nat) {t : State} (hl : t.len.toNat < 8) (h : 0 < t.len.toNat) :
    bitsKept 7 8 u t =
      setWindow ((t.acc.toNat * 128 + u) % 2 ^ (t.len.toNat - 1)) (t.len.toNat - 1) t := by
  rw [bitsKept, show (t.len.toNat + 7) % 8 = t.len.toNat - 1 by omega]
  rfl

theorem groupsOut_of_pending (u : Nat) {t : State} (hl : t.len.toNat < 8) (h : 0 < t.len.toNat) :
    groupsOut 7 8 u t =
      [BitVec.ofNat 8 ((t.acc.toNat * 128 + u) / 2 ^ (t.len.toNat - 1))] := by
  have hbyte (a : Nat) : BitVec.ofNat 8 (a % 2 ^ 8) = BitVec.ofNat 8 a :=
    BitVec.eq_of_toNat_eq (Nat.mod_mod a _)
  rw [groupsOut, show (t.len.toNat + 7) / 8 = 1 by omega, groups, groups,
    show t.len.toNat + 7 - 8 = t.len.toNat - 1 by omega, List.map_singleton, hbyte]
  rfl

/-- A 7-bit unit that finds the window empty stays in it. -/
theorem bitsKept_of_empty {u : Nat} {t : State} (hu : u < 2 ^ 7) (ha : t.acc.toNat < 2 ^ t.len.toNat)
    (h : ¬ 0 < t.len.toNat) :
    bitsKept 7 8 u t = setWindow (t.acc.toNat * 128 + u) (t.len.toNat + 7) t := by
  rw [bitsKept, show (t.len.toNat + 7) % 8 = t.len.toNat + 7 by omega,
    Nat.mod_eq_of_lt (shifted_lt ha hu)]
  rfl

theorem groupsOut_of_empty (u : Nat) {t : State} (h : ¬ 0 < t.len.toNat) : groupsOut 7 8 u t = [] := by
  rw [groupsOut, show (t.len.toNat + 7) / 8 = 0 by omega]
  rfl

/-- DECB.UNIT takes at most one group out of the window (spec/42_decode_bytes.md R151). -/
theorem decbUnit_emitsGroups (c : Config.Params) {u : Byte} (hu : u.toNat ≤ 127) :
    EmitsGroups c .decb 7 8 (.decbUnit u) u := by
  intro t hf hm hl ha
  refine (decbUnit_runs c u t hf hm (Nat.le_of_lt_succ hl) ha hu).trans ?_
  by_cases h : 0 < t.len.toNat
  · rw [if_pos h, groupsOut_of_pending _ hl h, bitsKept_of_pending _ hl h]
  · rw [if_neg h, groupsOut_of_empty _ h, bitsKept_of_empty (Nat.lt_succ_of_le hu) ha h]
    rfl

/-- With room for its whole groups a transaction of emitting elements stays open; otherwise it
overflows. -/
theorem streams_or_overflowed {c : Config.Params} {m : Mode} {w n : Nat} {first : Instr}
    {mk : Byte → Instr} {s : State} (hn : 0 < n) (hn' : n ≤ 8) (hfirst : first.WellFormed)
    (hbegin : effect c first (countWord s) = init m 0 (countWord s)) (hf : s.fault = .noFault)
    (hwf : ∀ x, (mk x).WellFormed) {xs : List Byte}
    (hmk : ∀ x ∈ xs, x.toNat < 2 ^ w ∧ EmitsGroups c m w n (mk x) x) :
    (OutqHolds c (w * xs.length / n) ∧ Streams m w n xs (afterElements c first mk xs s)) ∨
    (¬ OutqHolds c (w * xs.length / n) ∧ Overflowed (afterElements c first mk xs s)) := by
  induction xs using List.reverseRecOn with
  | nil =>
    left
    rw [afterElements_nil c mk s hfirst, hbegin]
    exact ⟨fun _ _ => by simp, streams_init (s := countWord s) hf 0⟩
  | append_singleton xs x ih =>
    obtain ⟨hxs, hx⟩ := List.forall_mem_append.1 hmk
    obtain ⟨hx, hemits⟩ := hx x (List.mem_singleton_self x)
    rw [afterElements_concat c first xs x s (hwf x)]
    rcases ih hxs with ⟨hcap, h⟩ | ⟨hcap, h⟩
    · have h := h.countWord
      generalize countWord (afterElements c first mk xs s) = t at h ⊢
      have hcount : t.outq.length + (groupsOut w n x.toNat t).length =
          w * (xs ++ [x]).length / n := by
        rw [← (h.concat hn hn' hx).outq_length]
        exact (List.length_append ..).symm
      rw [hemits t h.fault h.mode (h.len_lt hn) h.accBelow, ← hcount, ← roomFor_iff_outqHolds]
      by_cases hroom : roomFor c t (groupsOut w n x.toNat t).length
      · left
        refine ⟨hroom, ?_⟩
        rw [bitsKept, conclude_emitList_of_roomFor _ hroom]
        exact h.concat hn hn' hx
      · right
        have h0 : roomFor c t 0 := by
          rw [roomFor_iff_outqHolds, Nat.add_zero, h.outq_length]
          exact hcap
        rw [bitsKept, conclude_emitList_of_not_roomFor _ h0 hroom]
        exact ⟨hroom, overflowed_raise _ t⟩
    · right
      refine ⟨mt (fun hc => hc.mono (Nat.div_le_div_right (Nat.mul_le_mul_left w ?_))) hcap,
        h.after_effect c _⟩
      simp

/-! ### The pseudo-instruction encode -/

/-- After ENC.BEGIN and the bytes every whole unit is out, or OUTQ had no room for them all. -/
theorem encBytes_stream_or_overflow {c : Config.Params} {s : State} (bs : List Byte) (hm : s.mode = .idle)
    (hf : s.fault = .noFault) :
    (OutqHolds c (8 * bs.length / 7) ∧
      Streams .enc 8 7 bs (afterElements c .encBegin .encByte bs s)) ∨
    (¬ OutqHolds c (8 * bs.length / 7) ∧
      Overflowed (afterElements c .encBegin .encByte bs s)) :=
  streams_or_overflowed (first := .encBegin) (by omega) (by omega) rfl
    (encBegin_idle (s := countWord s) hf hm) hf (fun _ => rfl) fun b _ => ⟨b.isLt, encByte_emitsGroups c b⟩

/-- The zero-filled last unit of the machine is that of `encode_ref`. -/
theorem Streams.append_lastUnit {bs : List Byte} {t : State} (h : Streams .enc 8 7 bs t) :
    (t.outq ++ lastUnit t).map BitVec.toNat = encodeRef (bs.map BitVec.toNat) := by
  have hbs : ∀ b ∈ bs.map BitVec.toNat, b < 2 ^ 8 :=
    List.forall_mem_map.2 fun b _ => b.isLt
  have hlen : t.len.toNat = (regrouped 8 7 (bs.map BitVec.toNat)).len := by
    rw [h.len, regrouped_len, List.length_map]
  have hlt := h.len_lt (by omega)
  dsimp only [encodeRef]
  rw [foldl_encodeRefByte hbs, List.map_append, h.outq, lastUnit, ← hlen]
  split
  next hpending =>
    have hunit : t.acc.toNat * 2 ^ (7 - t.len.toNat) =
        packed 8 (bs.map BitVec.toNat) * 2 ^ (7 - t.len.toNat) % 2 ^ 7 := by
      rw [h.acc, ← h.len, ← Nat.mul_mod_mul_right, ← Nat.pow_add]
      congr 2
      omega
    have hbyte : packed 8 (bs.map BitVec.toNat) * 2 ^ (7 - t.len.toNat) % 2 ^ 7 < 2 ^ 8 :=
      (Nat.mod_lt _ (by omega)).trans (by omega)
    rw [List.map_singleton, BitVec.toNat_ofNat, hunit, Nat.mod_eq_of_lt hbyte, and_mask,
      Nat.shiftLeft_eq]
    rfl
  next => exact List.append_nil _

/-- Whole units and the last unit are `ceil(8n/7)` units (spec/41_encode.md R134). -/
theorem Streams.length_append_lastUnit {bs : List Byte} {t : State} (h : Streams .enc 8 7 bs t) :
    t.outq.length + (lastUnit t).length = (8 * bs.length + 6) / 7 := by
  have := congrArg List.length h.append_lastUnit
  rwa [List.length_map, List.length_append, encodeRef_length, List.length_map] at this

theorem runWords_encodeWords (c : Config.Params) (bs : List Byte) (s : State) :
    runWords c (encodeWords bs) s =
      encEnd c (countWord (afterElements c .encBegin .encByte bs s)) := by
  rw [encodeWords, runWords_concat, issue_encode c rfl]
  rfl

/-- ENC.END of an open transaction, as one emission. -/
theorem Streams.encEnd_emits (c : Config.Params) {bs : List Byte} {t : State}
    (h : Streams .enc 8 7 bs t) : encEnd c t =
      conclude (encode .encEnd) t ((emitList c (lastUnit t) (setWindow 0 0 t)).map commit) :=
  encEnd_runs c t h.fault h.mode (Nat.le_of_lt_succ (h.len_lt (by omega))) h.accBelow

/-- With room for all units ENC.END puts out the last one and commits. -/
theorem Streams.encEnd_commits {c : Config.Params} {bs : List Byte} {t : State}
    (h : Streams .enc 8 7 bs t) (hcap : OutqHolds c ((8 * bs.length + 6) / 7)) :
    encEnd c t = commit (pushSymbols (lastUnit t) (setWindow 0 0 t)) := by
  rw [← h.length_append_lastUnit, ← roomFor_iff_outqHolds] at hcap
  exact (h.encEnd_emits c).trans (conclude_emitList_of_roomFor _ hcap)

/-- With room for the whole units only, ENC.END overflows. -/
theorem Streams.encEnd_overflows {c : Config.Params} {bs : List Byte} {t : State}
    (h : Streams .enc 8 7 bs t) (hwhole : OutqHolds c (8 * bs.length / 7))
    (hcap : ¬ OutqHolds c ((8 * bs.length + 6) / 7)) : Overflowed (encEnd c t) := by
  rw [← h.outq_length] at hwhole
  rw [← h.length_append_lastUnit, ← roomFor_iff_outqHolds] at hcap
  rw [h.encEnd_emits c, conclude_emitList_of_not_roomFor _ hwhole hcap]
  exact overflowed_raise _ t

/-- The committed state of a transaction that fits. -/
theorem Streams.committed_ocnt {bs : List Byte} {t : State} (h : Streams .enc 8 7 bs t) :
    (commit (pushSymbols (lastUnit t) (setWindow 0 0 t))).ocnt.toNat =
      (8 * bs.length + 6) / 7 % 2 ^ 32 := by
  rw [commit_ocnt, pushSymbols_ocnt_toNat, setWindow_ocnt, h.counts, Nat.mod_add_mod,
    h.length_append_lastUnit]

/-- Settles O38: the elements stream the whole units or overflow, and so does ENC.END with the last
unit. -/
theorem encodeTransactionComputesEncodeRef : Obligations.EncodeTransactionComputesEncodeRef := by
  intro c s bs hm hf
  rw [← not_outqHolds_iff, runWords_encodeWords]
  change (OutqHolds c _ → _) ∧ _
  rcases encBytes_stream_or_overflow (c := c) bs hm hf with ⟨hwhole, h⟩ | ⟨hno, hover⟩
  · have h := h.countWord
    refine ⟨fun hcap => ?_, h.encEnd_overflows hwhole⟩
    rw [h.encEnd_commits hcap]
    exact ⟨h.fault, rfl, rfl, h.append_lastUnit, h.committed_ocnt⟩
  · exact ⟨fun hcap => absurd (hcap.mono (by omega)) hno, fun _ => hover.after_effect c .encEnd⟩

/-! ### The window and the output after n elements -/

theorem decbUnit_checks {c : Config.Params} (u : Byte) (t : State)
    (h : (effect c (.decbUnit u) t).fault = .noFault) : u.toNat ≤ 127 :=
  unit_le_of_runCommand h

theorem dbufUnit_checks {c : Config.Params} (u : Byte) (t : State)
    (h : (effect c (.dbufUnit u) t).fault = .noFault) : u.toNat ≤ 127 :=
  unit_le_of_runCommand h

theorem Overflowed.not_noFault {t : State} (h : Overflowed t) : t.fault ≠ .noFault := by
  simp [h.1]

/-- A run of DECB units without a fault streams them. -/
theorem streams_afterDecbUnits {c : Config.Params} {s : State} {us : List Byte} (hm : s.mode = .idle)
    (hf : s.fault = .noFault) (h : (afterElements c .decbBegin .decbUnit us s).fault = .noFault) :
    Streams .decb 7 8 us (afterElements c .decbBegin .decbUnit us s) := by
  have hus := units_le_of_afterElements (fun _ => rfl) decbUnit_checks h
  obtain ⟨_, hstreams⟩ | ⟨_, hover⟩ :=
    streams_or_overflowed (c := c) (first := .decbBegin) (mk := .decbUnit) (by omega) (by omega) rfl
      (decbBegin_idle (s := countWord s) hf hm) hf (fun _ => rfl)
      fun u hu => ⟨Nat.lt_succ_of_le (hus u hu), decbUnit_emitsGroups c (hus u hu)⟩
  · exact hstreams
  · exact absurd h hover.not_noFault

/-- DBUF.UNIT in its MODE without a fault: the byte that leaves the window, if any, is written at OCNT,
which does not wrap, since BUFMEM has that index (spec/44_decode_buffer.md R191). -/
theorem WindowHolds.after_dbufUnit {c : Config.Params} {us : List Byte} {u : Byte} {t : State}
    (h : WindowHolds .dbuf 7 8 us t) (hf : (effect c (.dbufUnit u) t).fault = .noFault) :
    WindowHolds .dbuf 7 8 (us ++ [u]) (effect c (.dbufUnit u) t) ∧
    (effect c (.dbufUnit u) t).ocnt.toNat = t.ocnt.toNat + (t.len.toNat + 7) / 8 := by
  have hu := dbufUnit_checks u t hf
  have hu' : u.toNat < 2 ^ 7 := Nat.lt_succ_of_le hu
  have hl := h.len_lt (by omega)
  have heffect : effect c (.dbufUnit u) t = _ :=
    dbufUnit_runs c u t h.fault h.mode (Nat.le_of_lt_succ hl) h.accBelow hu
  rw [heffect] at hf ⊢
  by_cases h0 : 0 < t.len.toNat
  · rw [if_pos h0, ← bitsKept_of_pending _ hl h0, bufwrite_eq] at hf ⊢
    split at hf
    next => cases hf
    next hnotFull =>
      have hcap : t.ocnt.toNat < (c.bufCap : Nat) := Nat.lt_of_not_le hnotFull
      have hbound := c.bufCap.isLt
      rw [if_neg hnotFull]
      refine ⟨h.concat (by omega) le_rfl hu' rfl rfl rfl rfl, ?_⟩
      rw [show (t.len.toNat + 7) / 8 = 1 by omega]
      exact BitVec.toNat_add_of_lt (by change t.ocnt.toNat + 1 < _; omega)
  · rw [if_neg h0, ← bitsKept_of_empty hu' h.accBelow h0,
      show (t.len.toNat + 7) / 8 = 0 by omega]
    exact ⟨h.concat (by omega) le_rfl hu' rfl rfl rfl rfl, rfl⟩

/-- A run of DBUF units without a fault writes the whole bytes of their stream. -/
theorem windowHolds_afterDbufUnits {c : Config.Params} {s : State} {us : List Byte}
    (hm : s.mode = .idle) (hf : s.fault = .noFault)
    (h : (afterElements c .dbufBegin .dbufUnit us s).fault = .noFault) :
    WindowHolds .dbuf 7 8 us (afterElements c .dbufBegin .dbufUnit us s) ∧
    (afterElements c .dbufBegin .dbufUnit us s).ocnt.toNat = 7 * us.length / 8 := by
  induction us using List.reverseRecOn with
  | nil =>
    rw [afterElements_nil c _ s rfl]
    have hbegin : effect c .dbufBegin (countWord s) = _ :=
      dbufBegin_idle (s := countWord s) hf hm
    rw [hbegin]
    exact ⟨windowHolds_init (s := withdrawBuf (countWord s)) hf 0, rfl⟩
  | append_singleton us u ih =>
    rw [afterElements_concat c _ us u s rfl] at h ⊢
    obtain ⟨hwindow, hocnt⟩ := ih (fault_before_of_effect (s := countWord _) h)
    obtain ⟨hwindow', hocnt'⟩ := hwindow.countWord.after_dbufUnit h
    refine ⟨hwindow', hocnt'.trans ?_⟩
    rw [countWord_ocnt, hocnt, countWord_len, hwindow.len, List.length_append,
      List.length_singleton]
    omega

/-- Settles O37: without a fault each mode's elements are streamed through the window. -/
theorem windowLengthFollowsTheCount : Obligations.WindowLengthFollowsTheCount := by
  intro c s vs hf hm
  refine ⟨?enc, ?decb, ?dbuf⟩
  case enc =>
    rintro t rfl ht
    obtain ⟨_, h⟩ | ⟨_, hover⟩ := encBytes_stream_or_overflow (c := c) vs hm hf
    · exact ⟨h.len.trans (by omega), h.outq_length⟩
    · exact absurd ht hover.not_noFault
  case decb =>
    rintro t rfl ht
    have h := streams_afterDecbUnits hm hf ht
    exact ⟨h.len, h.outq_length⟩
  case dbuf =>
    rintro t rfl ht
    obtain ⟨h, hocnt⟩ := windowHolds_afterDbufUnits hm hf ht
    exact ⟨h.len, hocnt⟩

end Sys2Proof.Machine

/-! ### Decode-to-bytes: single commands -/

namespace Sys2Proof.Machine

theorem len_pos_of_ne_zero {s : State} (h : ¬ s.len = 0) : 0 < s.len.toNat :=
  Nat.pos_of_ne_zero fun h0 => h (BitVec.eq_of_toNat_eq h0)

/-- The bits that stay after a unit: all 7, or one fewer than before (spec/42_decode_bytes.md R155). -/
theorem decbUnit_bitsPending {s : State} (hl : s.len.toNat ≤ 7) :
    (s.len.toNat + 7) % 8 = if s.len = 0 then 7 else s.len.toNat - 1 := by
  split
  next h => simp [h]
  next h =>
    have := len_pos_of_ne_zero h
    omega

/-- A unit drives a byte out exactly when it finds a pending bit (spec/42_decode_bytes.md R155). -/
theorem decbUnit_groupsOut (u : Nat) {s : State} (hl : s.len.toNat ≤ 7) :
    groupsOut 7 8 u s = if s.len = 0 then []
      else [BitVec.ofNat 8 ((s.acc.toNat * 128 + u) / 2 ^ (s.len.toNat - 1))] := by
  split
  next h => exact groupsOut_of_empty u (by simp [h])
  next h => exact groupsOut_of_pending u (Nat.lt_succ_of_le hl) (len_pos_of_ne_zero h)

theorem decbUnit_groupsOut_length (u : Nat) {s : State} (hl : s.len.toNat ≤ 7) :
    (groupsOut 7 8 u s).length = if s.len = 0 then 0 else 1 := by
  rw [decbUnit_groupsOut u hl]
  split <;> rfl

/-- Settles O17: at most one byte of the window goes out and the rest stays. -/
theorem decbUnitResult : Obligations.DecbUnitResult := by
  intro u s hf hm hl ha hu
  have hresult (c : Config.Params) (hroom : roomFor c s (if s.len = 0 then 0 else 1)) :
      effect c (.decbUnit u) s = absorbed 7 8 u.toNat s :=
    (decbUnit_emitsGroups c hu s hf hm (Nat.lt_succ_of_le hl) ha).trans
      (conclude_emitList_of_roomFor _ ((decbUnit_groupsOut_length u.toNat hl).symm ▸ hroom))
  refine ⟨absorbed 7 8 u.toNat s, ?_, fun hroom => ?_, hresult⟩
  · simp only [absorbed, accept, pushSymbols, bitsKept, setWindow, decbUnit_groupsOut _ hl,
      decbUnit_bitsPending hl]
    split <;> rfl
  · rw [exec_eq_effect, hresult _ hroom]

theorem decbEnd_open {s : State} (hf : s.fault = .noFault) (hm : s.mode = .decb) :
    decbEnd s = commit s := runCommand_ok hf hm rfl

theorem dbufEnd_open {s : State} (hf : s.fault = .noFault) (hm : s.mode = .dbuf) :
    dbufEnd s = commit (publishBuf s) := runCommand_ok hf hm rfl

/-- Settles O18: both END commands are COMMIT, DBUF.END after publishing its result. -/
theorem decodeEndsCommit : Obligations.DecodeEndsCommit := fun _ hf =>
  ⟨fun hm => congrArg Host.Outcome.next (decbEnd_open hf hm),
    fun hm => congrArg Host.Outcome.next (dbufEnd_open hf hm)⟩

end Sys2Proof.Machine

/-! ### `decode_ref` after `encode_ref` -/

namespace Sys2Proof.Machine

/-- Packing the groups of a window gives the window back (spec/20_memory.md R52, R53). -/
theorem packed_groups (n k a : Nat) : packed n (groups n k a (n * k)) = a % 2 ^ (n * k) := by
  induction k generalizing a with
  | zero => simp [groups, Nat.mod_one]
  | succ k ih =>
    obtain ⟨b, x, hx, rfl⟩ : ∃ b x, x < 2 ^ n ∧ a = b * 2 ^ n + x :=
      ⟨a / 2 ^ n, a % 2 ^ n, Nat.mod_lt _ (by positivity), (Nat.div_add_mod' a _).symm⟩
    have hlast : groups n 1 (b * 2 ^ n + x) n = [x] := by
      simp [groups, Nat.mod_eq_of_lt hx]
    rw [groups_add _ le_rfl, Nat.mul_succ, groups_append_bits _ le_rfl hx, Nat.add_sub_cancel_left,
      hlast, packed_concat, ih, mod_two_pow_shift hx]

/-- The units of `encode_ref` are the groups of the zero-filled stream (spec/41_encode.md R134). -/
theorem encodeRef_fills {bs : List Nat} (h : ∀ b ∈ bs, b < 2 ^ 8) :
    ∃ k, ∃ z < 7, 8 * bs.length + z = 7 * k ∧
      encodeRef bs = groups 7 k (packed 8 bs * 2 ^ z) (7 * k) := by
  obtain ⟨z, hz, hk⟩ : ∃ z < 7, 8 * bs.length + z = 7 * ((8 * bs.length + 6) / 7) :=
    ⟨7 * ((8 * bs.length + 6) / 7) - 8 * bs.length, by omega, by omega⟩
  exact ⟨_, z, hz, hk, hk ▸ encodeRef_eq_groups h hz hk⟩

theorem encodeRef_lt {bs : List Nat} (h : ∀ b ∈ bs, b < 2 ^ 8) : ∀ u ∈ encodeRef bs, u < 2 ^ 7 := by
  obtain ⟨k, z, _, _, henc⟩ := encodeRef_fills h
  exact fun u hu => lt_of_mem_groups (henc ▸ hu)

/-- `decode_ref` reads the same stream and never reaches the encoder's fill
(spec/42_decode_bytes.md R157). -/
theorem decodeRef_encodeRef {bs : List Nat} (h : ∀ b ∈ bs, b < 2 ^ 8) :
    decodeRef (encodeRef bs) = bs := by
  obtain ⟨k, z, hz, hk, henc⟩ := encodeRef_fills h
  have hwhole : 7 * k / 8 = bs.length := by omega
  have hfill : groups 8 bs.length (packed 8 bs * 2 ^ z) (8 * bs.length + z) =
      groups 8 bs.length (packed 8 bs) (8 * bs.length) :=
    groups_append_bits (b := 0) (packed 8 bs) le_rfl (by positivity)
  rw [decodeRef_eq_groups (encodeRef_lt h), henc, groups_length, packed_groups, hwhole,
    groups_mod _ (by omega), ← hk, hfill, groups_packed h]

/-- Settles O44: the bytes of the encoder's stream of units are the bytes it was given. -/
theorem decodeRefInvertsEncodeRef : Obligations.DecodeRefInvertsEncodeRef := fun _ h =>
  decodeRef_encodeRef fun b hb => Nat.lt_succ_of_le (h b hb)

end Sys2Proof.Machine

/-! ### The pseudo-instruction decode.bytes -/

namespace Sys2Proof.Machine

/-- After DECB.BEGIN and the units every whole byte is out, or OUTQ had no room for them all. -/
theorem decbUnits_stream_or_overflow {c : Config.Params} {s : State} {us : List Byte}
    (hm : s.mode = .idle) (hf : s.fault = .noFault) (hus : ∀ u ∈ us, u.toNat ≤ 127) :
    (OutqHolds c (7 * us.length / 8) ∧
      Streams .decb 7 8 us (afterElements c .decbBegin .decbUnit us s)) ∨
    (¬ OutqHolds c (7 * us.length / 8) ∧
      Overflowed (afterElements c .decbBegin .decbUnit us s)) :=
  streams_or_overflowed (first := .decbBegin) (by omega) le_rfl rfl
    (decbBegin_idle (s := countWord s) hf hm) hf (fun _ => rfl)
    fun u hu => ⟨Nat.lt_succ_of_le (hus u hu), decbUnit_emitsGroups c (hus u hu)⟩

theorem runWords_decodeBytesWords (c : Config.Params) (us : List Byte) (s : State) :
    runWords c (decodeBytesWords us) s =
      decbEnd (countWord (afterElements c .decbBegin .decbUnit us s)) := by
  rw [decodeBytesWords, runWords_concat, issue_encode c rfl]
  rfl

/-- The whole bytes of an open transaction are the output of `decode_ref`. -/
theorem Streams.outq_eq_decodeRef {us : List Byte} {t : State} (h : Streams .decb 7 8 us t)
    (hus : ∀ u ∈ us, u.toNat ≤ 127) : t.outq.map BitVec.toNat = decodeRef (us.map BitVec.toNat) := by
  have hlt : ∀ u ∈ us.map BitVec.toNat, u < 2 ^ 7 :=
    List.forall_mem_map.2 fun u hu => Nat.lt_succ_of_le (hus u hu)
  rw [h.outq, decodeRef, foldl_decodeRefUnit hlt]

/-- Settles O39: the units stream the whole bytes or overflow, and DECB.END commits. -/
theorem decodeBytesTransactionComputesDecodeRef :
    Obligations.DecodeBytesTransactionComputesDecodeRef := by
  intro c s us hm hf hus
  rw [← not_outqHolds_iff, runWords_decodeBytesWords]
  change (OutqHolds c _ → _) ∧ _
  rcases decbUnits_stream_or_overflow (c := c) hm hf hus with ⟨hcap, h⟩ | ⟨hno, hover⟩
  · have h := h.countWord
    refine ⟨fun _ => ?_, fun hno => absurd hcap hno⟩
    rw [decbEnd_open h.fault h.mode]
    exact ⟨h.fault, rfl, rfl, h.outq_eq_decodeRef hus, h.counts.trans (by rw [h.outq_length])⟩
  · exact ⟨fun hcap => absurd hcap hno, fun _ => (hover.after_effect c .decbEnd).1⟩

/-- Settles O49: `encode` leaves `encode_ref` in OUTQ, `decode.bytes` fits since it puts out fewer
symbols, and `decode_ref` inverts `encode_ref`. -/
theorem machineRoundTrip : Obligations.MachineRoundTrip := by
  rintro c s bs hm hf hcap t rfl
  have hbs : ∀ b ∈ bs.map BitVec.toNat, b < 2 ^ 8 := List.forall_mem_map.2 fun b _ => b.isLt
  obtain ⟨hfault, _, hmode, hout, _⟩ := (encodeTransactionComputesEncodeRef c s bs hm hf).1 hcap
  generalize runWords c (encodeWords bs) s = t at hfault hmode hout ⊢
  have hunits : ∀ u ∈ t.outq, u.toNat ≤ 127 := fun u hu =>
    Nat.le_of_lt_succ (encodeRef_lt hbs _ (hout ▸ List.mem_map_of_mem hu))
  have hlen : t.outq.length = (8 * bs.length + 6) / 7 := by
    simpa [encodeRef_length] using congrArg List.length hout
  have hroom : OutqHolds c (7 * t.outq.length / 8) := OutqHolds.mono hcap (by omega)
  obtain ⟨_, hdone, _, hback, _⟩ :=
    (decodeBytesTransactionComputesDecodeRef c t t.outq hmode hfault hunits).1 hroom
  rw [hout, decodeRef_encodeRef hbs] at hback
  exact ⟨List.map_injective_iff.2 BitVec.toNat_injective hback, hdone⟩

/-! ### decode.bytes with a unit above 127 -/

/-- While FAULT is set a run of command words moves the position only (spec/60_exceptions.md R230). -/
theorem runWords_of_fault (c : Config.Params) (words : List Word) {s : State}
    (hf : s.fault ≠ .noFault) : runWords c words s = { s with pos := s.pos + words.length } := by
  induction words generalizing s with
  | nil => rfl
  | cons w words ih =>
    have hissue : issue c w (countWord s) = countWord s := by
      rcases issue_cases c w (countWord s) with ⟨_, h⟩ | ⟨h, _⟩ | ⟨_, _, h, _⟩
      · exact h
      · exact absurd h hf
      · exact absurd h hf
    refine (congrArg (runWords c words) hissue).trans ((ih (s := countWord s) hf).trans ?_)
    simp [countWord, Nat.add_assoc, Nat.add_comm]

/-- The run up to and with a given unit, then the rest of the words. -/
theorem runWords_decodeBytesWords_append (c : Config.Params) (us vs : List Byte) (u : Byte)
    (s : State) : runWords c (decodeBytesWords (us ++ u :: vs)) s =
      runWords c (vs.map (fun v => encode (.decbUnit v)) ++ [encode .decbEnd])
        (decbUnit c u (countWord (afterElements c .decbBegin .decbUnit us s))) := by
  have hunit := afterElements_concat c .decbBegin us u s (mk := .decbUnit) rfl
  change _ = decbUnit c u _ at hunit
  rw [← hunit, afterElements, runWords, runWords, runWords, ← List.foldl_append]
  simp [decodeBytesWords]

/-- The word of DECB.UNIT (spec/42_decode_bytes.md R151). -/
theorem encode_decbUnit (u : Byte) : encode (.decbUnit u) = 0x5000#16 + u.setWidth 16 := by
  have := u.isLt
  apply BitVec.eq_of_toNat_eq
  rw [encode_toNat, BitVec.toNat_add, BitVec.toNat_setWidth]
  simp [Instr.opcode, Instr.data]
  omega

/-- Settles O43: the units before it stream, the unit leaves its record, and the rest is ignored. -/
theorem firstUnitWithBit7IsRecorded : Obligations.FirstUnitWithBit7IsRecorded := by
  intro c s us vs u hm hf hus hu hcap
  rw [runWords_decodeBytesWords_append, ← encode_decbUnit]
  rcases decbUnits_stream_or_overflow (c := c) hm hf hus with ⟨_, h⟩ | ⟨hno, _⟩
  · have h := h.countWord
    have hraise : decbUnit c u _ = _ :=
      runCommand_checkUnit_raises _ h.fault h.mode (Nat.not_le_of_lt hu)
    rw [hraise, runWords_of_fault c _ (by simp)]
    exact ⟨rfl, rfl, rfl, rfl⟩
  · exact absurd hcap hno

/-- Refutes O42: with OUTQ_CAP = 1 the third of the units 0, 0, 0, 0x80 overflows OUTQ, and the fourth
is ignored. -/
theorem not_anyUnitWithBit7EndsInInvalidInput : ¬ Obligations.AnyUnitWithBit7EndsInInvalidInput := by
  intro h
  have hrun : (runWords ⟨0, some 1⟩ (decodeBytesWords [0, 0, 0, 0x80]) State.reset).fault =
      .outputOverflow := by decide
  have hinvalid := h ⟨0, some 1⟩ State.reset [0, 0, 0, 0x80] rfl rfl ⟨0x80, by simp, by decide⟩
  rw [hrun] at hinvalid
  cases hinvalid

end Sys2Proof.Machine

/-! ### Decode-to-base64: single commands -/

namespace Sys2Proof.Machine

/-- How many characters a unit drives out: one for every 6 bits above the P bits held back
(spec/43_decode_base64.md R172). -/
def charCount (s : State) : Nat := (s.len.toNat + 7 - s.p.toNat) / 6

/-- These characters, for the unit `u`. -/
def charsOut (u : Nat) (s : State) : List Byte :=
  (groups 6 (charCount s) (s.acc.toNat * 128 + u) (s.len.toNat + 7)).map b64Char

/-- The window they leave. -/
def bitsHeldBack (u : Nat) (s : State) : State :=
  setWindow ((s.acc.toNat * 128 + u) % 2 ^ (s.len.toNat + 7 - 6 * charCount s))
    (s.len.toNat + 7 - 6 * charCount s) s

@[simp] theorem charsOut_length (u : Nat) (s : State) : (charsOut u s).length = charCount s := by
  simp [charsOut]

theorem mul_charCount_le (s : State) : 6 * charCount s ≤ s.len.toNat + 7 :=
  (Nat.mul_div_le _ 6).trans (Nat.sub_le _ _)

/-- A D64.UNIT that completed (spec/43_decode_base64.md R172). -/
def repacked (u : Nat) (s : State) : State := accept (pushSymbols (charsOut u s) (bitsHeldBack u s))

/-- D64.UNIT as one emission. -/
theorem d64Unit_emits {c : Config.Params} {s : State} {u : Byte} (hf : s.fault = .noFault)
    (hm : s.mode = .d64) (hl : s.len.toNat ≤ 5 + s.p.toNat) (ha : s.acc.toNat < 2 ^ s.len.toNat)
    (hu : u.toNat ≤ 127) :
    d64Unit c u s = conclude (encode (.d64Unit u)) s
      ((emitList c (charsOut u.toNat s) (bitsHeldBack u.toNat s)).map accept) := by
  rw [d64Unit_runs c u s hf hm hl ha hu, Nat.mul_comm _ 6]
  rfl

/-- Settles O19: the characters above the P bits held back go out and the rest of the window stays. -/
theorem d64UnitResult : Obligations.D64UnitResult := by
  intro u s hf hm hl ha hu
  have hresult (c : Config.Params) (hroom : roomFor c s (charCount s)) :
      effect c (.d64Unit u) s = repacked u.toNat s :=
    (d64Unit_emits hf hm hl ha hu).trans
      (conclude_emitList_of_roomFor _ ((charsOut_length u.toNat s).symm ▸ hroom))
  refine ⟨repacked u.toNat s, ?_, fun hroom => ?_, hresult⟩
  · simp only [repacked, accept, pushSymbols, charsOut_length]
    rw [charsOut, groups_eq (mul_charCount_le s), List.map_map]
    rfl
  · rw [exec_eq_effect, hresult _ hroom]

/-- Settles O20: the symbols of D64.END are the last character and the `=`, then the commit. -/
theorem d64EndResult : Obligations.D64EndResult := by
  intro s tail hf hm hk hpl hl ha htail
  obtain rfl : tail = d64EndSymbols s := htail
  have hresult (c : Config.Params) (hroom : roomFor c s (d64EndSymbols s).length) :
      effect c .d64End s = commit (pushSymbols (d64EndSymbols s) s) :=
    (d64End_runs c s hf hm hk hpl hl ha).trans (conclude_emitList_of_roomFor _ hroom)
  refine ⟨commit (pushSymbols (d64EndSymbols s) s), rfl, fun hroom => ?_, hresult⟩
  rw [exec_eq_effect, hresult _ hroom]

/-- Settles O36: by the invariant the bits that DROP leaves are what fills up the characters to whole
bytes, so they are 0, 2 or 4 bits, after 0, 1 or 2 characters modulo 4. -/
theorem d64EndNeverPadsThree : Obligations.D64EndNeverPadsThree := by
  intro c s hinv hm hk
  obtain ⟨hlen, hcong, _⟩ := (modeBounds_d64 hm).1 hinv.modeBounds
  have hpl := p_le_len_of_check hm hinv.modeBounds hk
  have hbytes : (6 * s.ocnt.toNat + (s.len.toNat - s.p.toNat)) % 8 = 0 := by omega
  refine ⟨hpl, by omega, ?_⟩
  split <;> omega

end Sys2Proof.Machine

/-! ### `decode64_ref` as standard base64 -/

namespace Sys2Proof.Machine

/-- Groups above the newest `p` bits do not depend on them (spec/40_accumulator.md R106). -/
theorem groups_drop_bits {n k l : Nat} (a p : Nat) (h : n * k ≤ l) :
    groups n k a (l + p) = groups n k (a / 2 ^ p) l := by
  conv_lhs => rw [← Nat.div_add_mod' a (2 ^ p)]
  exact groups_append_bits _ h (Nat.mod_lt _ (by positivity))

/-- `r` bits after the last whole group make one more when filled up with `z` zeros
(spec/40_accumulator.md R104). -/
theorem groups_fill_zeros {n q r z : Nat} (a : Nat) (h : r + z = n) :
    groups n (q + 1) (a * 2 ^ z) (n * (q + 1)) = groups n q a (n * q + r) ++ [a * 2 ^ z % 2 ^ n] := by
  have hfill : groups n q (a * 2 ^ z) (n * q + r + z) = groups n q a (n * q + r) :=
    groups_append_bits (b := 0) a (Nat.le_add_right _ r) (by positivity)
  rw [groups_add _ le_rfl, Nat.mul_succ, Nat.add_sub_cancel_left, ← hfill, Nat.add_assoc, h]
  simp [groups]

/-- The first symbols of a sequence are the high bits of its stream. -/
theorem packed_append (w : Nat) (xs ys : List Nat) :
    packed w (xs ++ ys) = packed w xs * 2 ^ (w * ys.length) + packed w ys := by
  induction ys using List.reverseRecOn with
  | nil => simp
  | append_singleton ys y ih =>
    rw [← List.append_assoc, packed_concat, ih, packed_concat, List.length_append,
      List.length_singleton, Nat.mul_succ, Nat.pow_add]
    ring

theorem packed_lt {w : Nat} {xs : List Nat} (h : ∀ x ∈ xs, x < 2 ^ w) :
    packed w xs < 2 ^ (w * xs.length) := by
  have hmod := packed_groups w xs.length (packed w xs)
  rw [groups_packed h] at hmod
  exact hmod ▸ Nat.mod_lt _ (by positivity)

/-- The reference state once the units `us` came in, when `p` bits are held back
(spec/43_decode_base64.md R172). -/
def heldBack (p : Nat) (us : List Nat) : RefState :=
  ⟨packed 7 us, 7 * us.length - 6 * ((7 * us.length - p) / 6),
    (groups 6 ((7 * us.length - p) / 6) (packed 7 us) (7 * us.length)).map alpha⟩

/-- Between units fewer than 6 bits above the `p` held back are pending
(spec/43_decode_base64.md R177). -/
theorem heldBack_len_le {p : Nat} (hp : p ≤ 7) (us : List Nat) : (heldBack p us).len ≤ 5 + p := by
  dsimp only [heldBack]
  omega

/-- One more unit: the characters that go out are those of the pending bits followed by it. -/
theorem heldBack_concat {p u : Nat} (hp : p ≤ 7) (us : List Nat) (hu : u < 2 ^ 7) :
    heldBack p (us ++ [u]) =
      ⟨packed 7 us * 2 ^ 7 + u,
        (heldBack p us).len + 7 - 6 * (((heldBack p us).len + 7 - p) / 6),
        (heldBack p us).out ++ (groups 6 (((heldBack p us).len + 7 - p) / 6)
          (packed 7 us * 2 ^ 7 + u) ((heldBack p us).len + 7)).map alpha⟩ := by
  dsimp only [heldBack]
  generalize hq : (7 * us.length - p) / 6 = q
  generalize hk : (7 * us.length - 6 * q + 7 - p) / 6 = k
  have hcount : (7 * (us.length + 1) - p) / 6 = q + k := by omega
  have hpending : 7 * (us.length + 1) - 6 * q = 7 * us.length - 6 * q + 7 := by omega
  rw [List.length_append, List.length_singleton, packed_concat, hcount, groups_add _ (by omega),
    hpending, Nat.mul_succ, groups_append_bits _ (by omega) hu, List.map_append]
  congr 1
  omega

/-- `decode64_ref` after the whole input. -/
theorem foldl_decode64RefUnit {p : Nat} (hp : p ≤ 7) {us : List Nat} (h : ∀ u ∈ us, u < 2 ^ 7) :
    us.foldl (decode64RefUnit p) ⟨0, 0, []⟩ = heldBack p us := by
  induction us using List.reverseRecOn with
  | nil => simp [heldBack, groups]
  | append_singleton us u ih =>
    obtain ⟨hus, hu⟩ := List.forall_mem_append.1 h
    rw [List.forall_mem_singleton] at hu
    have hlen := heldBack_len_le hp us
    rw [List.foldl_concat, ih hus, heldBack_concat hp us hu, decode64RefUnit,
      refDrain_eq (by omega), shift_or hu, passes_six (by omega) hp]
    rfl

/-- The characters of `decode64_ref` before the `=`: what DROP leaves is filled up with zeros
(spec/43_decode_base64.md R174). -/
theorem decode64Ref_eq {p : Nat} {us : List Nat} (h : ∀ u ∈ us, u < 2 ^ 7)
    (hp : 7 * us.length % 8 = p) :
    decode64Ref us = refPad ((heldBack p us).out ++
      if (heldBack p us).len = p then []
      else [alpha (packed 7 us / 2 ^ p * 2 ^ (6 - ((heldBack p us).len - p)) % 2 ^ 6)]) := by
  have hpl : p ≤ (heldBack p us).len := by
    dsimp only [heldBack]
    omega
  rw [decode64Ref, Nat.mul_comm, hp, foldl_decode64RefUnit (by omega) h]
  by_cases hnone : (heldBack p us).len = p
  · simp [hnone]
  · rw [if_pos (by omega), if_neg hnone, and_mask, Nat.shiftRight_eq_div_pow, Nat.shiftLeft_eq]
    rfl

/-- `decode64_ref` splits the stream of its units, without the padding and filled up with zeros, into
6-bit groups (spec/20_memory.md R54). -/
theorem decode64Ref_eq_groups {us : List Nat} {p k z : Nat} (h : ∀ u ∈ us, u < 2 ^ 7)
    (hp : 7 * us.length % 8 = p) (hz : z < 6) (hk : 8 * (7 * us.length / 8) + z = 6 * k) :
    decode64Ref us = refPad ((groups 6 k (packed 7 us / 2 ^ p * 2 ^ z) (6 * k)).map alpha) := by
  rw [decode64Ref_eq h hp]
  split
  next hwhole =>
    dsimp only [heldBack] at hwhole ⊢
    obtain ⟨rfl, hq⟩ : z = 0 ∧ (7 * us.length - p) / 6 = k := by omega
    rw [hq, Nat.pow_zero, Nat.mul_one, ← groups_drop_bits _ p le_rfl, List.append_nil,
      show 6 * k + p = 7 * us.length by omega]
  next hpart =>
    dsimp only [heldBack] at hpart ⊢
    obtain ⟨q, rfl⟩ : ∃ q, k = q + 1 := ⟨k - 1, by omega⟩
    have hq : (7 * us.length - p) / 6 = q := by omega
    have hfill : 6 - (7 * us.length - 6 * q - p) = z := by omega
    rw [hq, hfill, groups_fill_zeros (r := 6 - z) _ (by omega), List.map_append, List.map_singleton,
      ← groups_drop_bits _ p (by omega), show 6 * q + (6 - z) + p = 7 * us.length by omega]

/-- The bytes of `decode_ref` are the stream without the padding (spec/20_memory.md R53). -/
theorem packed_decodeRef {us : List Nat} (h : ∀ u ∈ us, u < 2 ^ 7) :
    packed 8 (decodeRef us) = packed 7 us / 2 ^ (7 * us.length % 8) := by
  have hbits : 7 * us.length = 8 * (7 * us.length / 8) + 7 * us.length % 8 := by omega
  have hlt : packed 7 us / 2 ^ (7 * us.length % 8) < 2 ^ (8 * (7 * us.length / 8)) := by
    rw [Nat.div_lt_iff_lt_mul (by positivity), ← Nat.pow_add, ← hbits]
    exact packed_lt h
  rw [decodeRef_eq_groups h]
  conv_lhs => arg 2; arg 4; rw [hbits]
  rw [groups_drop_bits _ _ le_rfl, packed_groups, Nat.mod_eq_of_lt hlt]

/-- Four characters in front change nothing in the `=` at the end. -/
theorem refPad_append_of_four {xs : List Nat} (h : xs.length = 4) (ys : List Nat) :
    refPad (xs ++ ys) = xs ++ refPad ys := by
  rw [refPad, refPad, List.length_append, h, Nat.add_mod_left, List.append_assoc]

/-- Three bytes are four 6-bit groups. -/
theorem groups_three_bytes {a b d : Nat} (ha : a < 2 ^ 8) (hb : b < 2 ^ 8) (hd : d < 2 ^ 8) :
    groups 6 4 (packed 8 [a, b, d]) 24 =
      [a / 4, a % 4 * 16 + b / 16, b % 16 * 4 + d / 64, d % 64] := by
  simp only [groups, packed, List.foldl, List.cons.injEq, and_true]
  omega

/-- Standard base64 splits the stream of the bytes, filled up with zeros, into 6-bit groups. -/
theorem stdBase64_eq_groups {bs : List Nat} {k z : Nat} (h : ∀ b ∈ bs, b < 2 ^ 8) (hz : z < 6)
    (hk : 8 * bs.length + z = 6 * k) :
    stdBase64 bs = refPad ((groups 6 k (packed 8 bs * 2 ^ z) (6 * k)).map alpha) := by
  induction bs using stdBase64.induct generalizing k with
  | case1 =>
    rw [List.length_nil] at hk
    obtain ⟨rfl, rfl⟩ : k = 0 ∧ z = 0 := by omega
    rfl
  | case2 a =>
    have ha : a < 2 ^ 8 := h a (by simp)
    simp only [List.length_cons, List.length_nil] at hk
    obtain ⟨rfl, rfl⟩ : k = 2 ∧ z = 4 := by omega
    have hgroups : groups 6 2 (packed 8 [a] * 2 ^ 4) (6 * 2) = [a / 4, a % 4 * 16] := by
      simp only [groups, packed, List.foldl, List.cons.injEq, and_true]
      omega
    rw [hgroups]
    rfl
  | case3 a b =>
    obtain ⟨ha, hb⟩ : a < 2 ^ 8 ∧ b < 2 ^ 8 := by simpa using h
    simp only [List.length_cons, List.length_nil] at hk
    obtain ⟨rfl, rfl⟩ : k = 3 ∧ z = 2 := by omega
    have hgroups : groups 6 3 (packed 8 [a, b] * 2 ^ 2) (6 * 3) =
        [a / 4, a % 4 * 16 + b / 16, b % 16 * 4] := by
      simp only [groups, packed, List.foldl, List.cons.injEq, and_true]
      omega
    rw [hgroups]
    rfl
  | case4 a b d rest ih =>
    obtain ⟨hfirst, hrest⟩ :=
      (List.forall_mem_append (l₁ := [a, b, d]) (l₂ := rest) (p := (· < 2 ^ 8))).1 h
    obtain ⟨ha, hb, hd⟩ : a < 2 ^ 8 ∧ b < 2 ^ 8 ∧ d < 2 ^ 8 := by simpa using hfirst
    rw [List.length_cons, List.length_cons, List.length_cons] at hk
    obtain ⟨k, rfl⟩ : ∃ j, k = 4 + j := ⟨k - 4, by omega⟩
    have hk : 8 * rest.length + z = 6 * k := by omega
    have hlow : packed 8 rest * 2 ^ z < 2 ^ (6 * k) := by
      rw [← hk, Nat.pow_add]
      exact Nat.mul_lt_mul_of_pos_right (packed_lt hrest) (by positivity)
    have hsplit : packed 8 (a :: b :: d :: rest) * 2 ^ z =
        packed 8 [a, b, d] * 2 ^ (6 * k) + packed 8 rest * 2 ^ z := by
      rw [← hk, Nat.pow_add, ← Nat.mul_assoc, ← Nat.add_mul]
      exact congrArg (· * 2 ^ z) (packed_append 8 [a, b, d] rest)
    have hhead : groups 6 4 (packed 8 [a, b, d] * 2 ^ (6 * k) + packed 8 rest * 2 ^ z)
        (24 + 6 * k) = groups 6 4 (packed 8 [a, b, d]) 24 := groups_append_bits _ le_rfl hlow
    have htail : groups 6 k (packed 8 [a, b, d] * 2 ^ (6 * k) + packed 8 rest * 2 ^ z) (6 * k) =
        groups 6 k (packed 8 rest * 2 ^ z) (6 * k) := by
      rw [← groups_mod _ le_rfl, Nat.mul_add_mod', groups_mod _ le_rfl]
    rw [stdBase64, ih hrest hk, hsplit, groups_add _ le_rfl, Nat.mul_add,
      Nat.add_sub_cancel_left, hhead, htail, groups_three_bytes ha hb hd, List.map_append,
      refPad_append_of_four rfl]
    rfl

/-- `decode64_ref` is the standard base64 of `decode_ref`: both split one stream of bits. -/
theorem decode64Ref_eq_stdBase64 {us : List Nat} (h : ∀ u ∈ us, u < 2 ^ 7) :
    decode64Ref us = stdBase64 (decodeRef us) := by
  obtain ⟨k, z, hz, hk⟩ : ∃ k z, z < 6 ∧ 8 * (7 * us.length / 8) + z = 6 * k :=
    ⟨(8 * (7 * us.length / 8) + 5) / 6, 6 * ((8 * (7 * us.length / 8) + 5) / 6) -
      8 * (7 * us.length / 8), by omega, by omega⟩
  have hbytes : ∀ b ∈ decodeRef us, b < 2 ^ 8 :=
    fun b hb => lt_of_mem_groups (decodeRef_eq_groups h ▸ hb)
  rw [decode64Ref_eq_groups h rfl hz hk,
    stdBase64_eq_groups hbytes hz ((decodeRef_length us).symm ▸ hk), packed_decodeRef h]

/-- Settles O45: `decode64_ref` and standard base64 split the same bits, and `decode_ref` inverts
`encode_ref`. -/
theorem decode64RefIsStandardBase64 : Obligations.Decode64RefIsStandardBase64 := by
  refine ⟨fun us h => decode64Ref_eq_stdBase64 fun u hu => Nat.lt_succ_of_le (h u hu),
    fun bs h => ?_⟩
  have hbs : ∀ b ∈ bs, b < 2 ^ 8 := fun b hb => Nat.lt_succ_of_le (h b hb)
  rw [decode64Ref_eq_stdBase64 (encodeRef_lt hbs), decodeRef_encodeRef hbs]

end Sys2Proof.Machine

/-! ### The pseudo-instruction decode.base64 -/

namespace Sys2Proof.Machine

/-- A command that emits completes when OUTQ holds its symbols too, and overflows otherwise. -/
theorem emission_cases {c : Config.Params} {t : State} {vs : List Byte} {a l : Nat} (w : Word)
    (k : State → State) (h0 : OutqHolds c t.outq.length) :
    (OutqHolds c (t.outq.length + vs.length) ∧
      conclude w t ((emitList c vs (setWindow a l t)).map k) = k (pushSymbols vs (setWindow a l t))) ∨
    (¬ OutqHolds c (t.outq.length + vs.length) ∧
      Overflowed (conclude w t ((emitList c vs (setWindow a l t)).map k))) := by
  by_cases hroom : roomFor c t vs.length
  · exact .inl ⟨hroom, conclude_emitList_of_roomFor w hroom⟩
  · rw [conclude_emitList_of_not_roomFor w h0 hroom]
    exact .inr ⟨hroom, overflowed_raise w t⟩

/-- A D64 transaction with `p` padding bits declared is open without a fault after the units `us`:
window and OUTQ are those of `decode64_ref`, and ICNT and OCNT count (spec/43_decode_base64.md R172). -/
structure Repacks (p : Nat) (us : List Byte) (t : State) : Prop where
  fault : t.fault = .noFault
  mode : t.mode = .d64
  padding : t.p.toNat = p
  icnt : t.icnt.toNat = us.length % 8
  len : t.len.toNat = (heldBack p (us.map BitVec.toNat)).len
  acc : t.acc.toNat = packed 7 (us.map BitVec.toNat) % 2 ^ t.len.toNat
  outq : t.outq.map BitVec.toNat = (heldBack p (us.map BitVec.toNat)).out
  counts : CountsOutq t

section
variable {p : Nat} {us : List Byte} {t : State}

theorem Repacks.countWord (h : Repacks p us t) : Repacks p us (countWord t) :=
  ⟨h.fault, h.mode, h.padding, h.icnt, h.len, h.acc, h.outq, h.counts⟩

theorem Repacks.accBelow (h : Repacks p us t) : t.acc.toNat < 2 ^ t.len.toNat := by
  rw [h.acc]
  exact Nat.mod_lt _ (by positivity)

theorem Repacks.padding_le (h : Repacks p us t) : p ≤ 7 :=
  h.padding ▸ Nat.le_of_lt_succ t.p.isLt

theorem Repacks.len_le (h : Repacks p us t) : t.len.toNat ≤ 5 + t.p.toNat := by
  rw [h.len, h.padding]
  exact heldBack_len_le h.padding_le _

theorem Repacks.outq_length (h : Repacks p us t) : t.outq.length = (7 * us.length - p) / 6 := by
  have := congrArg List.length h.outq
  rwa [List.length_map, heldBack, List.length_map, groups_length, List.length_map] at this

theorem Repacks.charCount_eq (h : Repacks p us t) :
    charCount t = ((heldBack p (us.map BitVec.toNat)).len + 7 - p) / 6 := by
  rw [charCount, h.len, h.padding]

/-- The window after SHIFT_IN of one more unit holds the end of the longer stream. -/
theorem Repacks.shifted (h : Repacks p us t) {u : Nat} (hu : u < 2 ^ 7) :
    t.acc.toNat * 128 + u =
      (packed 7 (us.map BitVec.toNat) * 2 ^ 7 + u) % 2 ^ (t.len.toNat + 7) := by
  rw [h.acc]
  exact mod_two_pow_shift hu

theorem repacks_init {s : State} (hf : s.fault = .noFault) (q : BitVec 3) :
    Repacks q.toNat [] (init .d64 q s) :=
  ⟨hf, rfl, rfl, rfl, by simp [heldBack], by simp, by simp [heldBack, groups], rfl⟩

/-- The window that a unit leaves is within its 19 bits (spec/43_decode_base64.md R177). -/
theorem Repacks.bitsHeldBack_len (h : Repacks p us t) (u : Nat) :
    (bitsHeldBack u t).len.toNat = t.len.toNat + 7 - 6 * charCount t := by
  have hlen := h.len_le
  have hp := t.p.isLt
  exact setWindow_len_toNat _ t (by omega)

theorem Repacks.bitsHeldBack_acc (h : Repacks p us t) {u : Nat} (hu : u < 2 ^ 7) :
    (bitsHeldBack u t).acc.toNat =
      (packed 7 (us.map BitVec.toNat) * 2 ^ 7 + u) % 2 ^ (t.len.toNat + 7 - 6 * charCount t) := by
  have hlen := h.len_le
  have hp := t.p.isLt
  rw [bitsHeldBack, setWindow_acc_toNat t (Nat.mod_lt _ (by positivity)) (by omega), h.shifted hu,
    mod_two_pow_mod (by omega)]

/-- The characters of the machine are those of the reference. -/
theorem Repacks.charsOut_toNat (h : Repacks p us t) {u : Nat} (hu : u < 2 ^ 7) :
    (charsOut u t).map BitVec.toNat =
      (groups 6 (charCount t) (packed 7 (us.map BitVec.toNat) * 2 ^ 7 + u) (t.len.toNat + 7)).map
        alpha := by
  rw [charsOut, h.shifted hu, groups_mod _ (mul_charCount_le t), List.map_map]
  rfl

/-- A unit that completes puts out what one more unit brings to the reference. -/
theorem Repacks.concat (h : Repacks p us t) {u : Byte} (hu : u.toNat ≤ 127) :
    Repacks p (us ++ [u]) (repacked u.toNat t) := by
  have hu : u.toNat < 2 ^ 7 := Nat.lt_succ_of_le hu
  have hstep := heldBack_concat h.padding_le (us.map BitVec.toNat) hu
  rw [← h.charCount_eq, ← h.len] at hstep
  have hmap : (us ++ [u]).map BitVec.toNat = us.map BitVec.toNat ++ [u.toNat] := List.map_append
  have hlen : (repacked u.toNat t).len.toNat = t.len.toNat + 7 - 6 * charCount t :=
    h.bitsHeldBack_len u.toNat
  refine ⟨h.fault, h.mode, h.padding, ?icnt, ?len, ?acc, ?outq, countsOutq_element h.counts _ _ _⟩
  case icnt =>
    have hicnt : (repacked u.toNat t).icnt.toNat = (t.icnt.toNat + 1) % 8 := accept_icnt_toNat _
    rw [hicnt, h.icnt, Nat.mod_add_mod, List.length_append, List.length_singleton]
  case len => rw [hlen, hmap, hstep]
  case acc =>
    rw [hlen, hmap, packed_concat]
    exact h.bitsHeldBack_acc hu
  case outq =>
    have hout : (repacked u.toNat t).outq = t.outq ++ charsOut u.toNat t := rfl
    rw [hout, List.map_append, h.outq, h.charsOut_toNat hu, hmap, hstep]

/-- The residue that `decode.base64` declares passes D64.END's check, and DROP finds the padding in the
window (spec/43_decode_base64.md R177). -/
theorem Repacks.check_passes (h : Repacks p us t) (hp : 7 * us.length % 8 = p) :
    (7 * t.icnt.toNat) % 8 = t.p.toNat ∧ t.p.toNat ≤ t.len.toNat := by
  rw [h.icnt, h.len, h.padding]
  dsimp only [heldBack]
  rw [List.length_map]
  omega

/-- What D64.END puts out completes the text of `decode64_ref`. -/
theorem Repacks.append_endSymbols (h : Repacks p us t) (hus : ∀ u ∈ us, u.toNat ≤ 127)
    (hp : 7 * us.length % 8 = p) :
    (t.outq ++ d64EndSymbols t).map BitVec.toNat = decode64Ref (us.map BitVec.toNat) := by
  have hlt : ∀ u ∈ us.map BitVec.toNat, u < 2 ^ 7 :=
    List.forall_mem_map.2 fun u hu => Nat.lt_succ_of_le (hus u hu)
  have hp' : 7 * (us.map BitVec.toNat).length % 8 = p := by rwa [List.length_map]
  have hpad (x : Nat) : padCount (t.ocnt.toNat + x) = (4 - (t.outq.length + x) % 4) % 4 := by
    rw [padCount, h.counts]
    omega
  have hlen := h.len_le
  have hpl := (h.check_passes hp).2
  rw [decode64Ref_eq hlt hp', ← h.outq, ← h.len, d64EndSymbols, h.padding, refPad, hpad]
  rw [h.padding] at hlen hpl
  by_cases hnone : t.len.toNat = p
  · simp [hnone]
  · have hchar : t.acc.toNat / 2 ^ p * 2 ^ (6 - (t.len.toNat - p)) =
        packed 7 (us.map BitVec.toNat) / 2 ^ p * 2 ^ (6 - (t.len.toNat - p)) % 2 ^ 6 := by
      rw [h.acc, ← Nat.add_sub_cancel' hpl, Nat.pow_add, Nat.mod_mul_right_div_self,
        Nat.add_sub_cancel_left, ← Nat.mul_mod_mul_right, ← Nat.pow_add]
      congr 2
      omega
    simp [hnone, hchar, alpha]

/-- All characters and the `=` are `4 * ceil(m / 3)` symbols for `m` bytes
(spec/43_decode_base64.md R176). -/
theorem Repacks.length_append_endSymbols (h : Repacks p us t) (hus : ∀ u ∈ us, u.toNat ≤ 127)
    (hp : 7 * us.length % 8 = p) :
    t.outq.length + (d64EndSymbols t).length = 4 * ((7 * us.length / 8 + 2) / 3) := by
  have := congrArg List.length (h.append_endSymbols hus hp)
  rwa [List.length_map, List.length_append, decode64Ref_length, List.length_map] at this

/-- D64.END puts out its symbols and commits, or overflows. -/
theorem Repacks.d64End_commits_or_overflows (c : Config.Params) (h : Repacks p us t)
    (hus : ∀ u ∈ us, u.toNat ≤ 127) (hp : 7 * us.length % 8 = p)
    (hunits : OutqHolds c ((7 * us.length - p) / 6)) :
    (OutqHolds c (4 * ((7 * us.length / 8 + 2) / 3)) ∧
      d64End c t = commit (pushSymbols (d64EndSymbols t) t)) ∨
    (¬ OutqHolds c (4 * ((7 * us.length / 8 + 2) / 3)) ∧ Overflowed (d64End c t)) := by
  obtain ⟨hk, hpl⟩ := h.check_passes hp
  rw [← h.outq_length] at hunits
  rw [d64End_runs c t h.fault h.mode hk hpl h.len_le h.accBelow,
    ← h.length_append_endSymbols hus hp]
  exact emission_cases _ commit hunits

end

/-- The P that `decode.base64` declares (spec/43_decode_base64.md R171). -/
theorem d64Begin_declares {s : State} (hf : s.fault = .noFault) (hm : s.mode = .idle) (n : Nat) :
    d64Begin (BitVec.ofNat 8 (n % 8)) s = init .d64 (BitVec.ofNat 3 (7 * n)) s := by
  have hk := residueOperand_toNat n
  rw [d64Begin_idle hf hm (by omega), hk]
  congr 1
  apply BitVec.eq_of_toNat_eq
  rw [BitVec.toNat_ofNat, BitVec.toNat_ofNat]
  omega

/-- With room for their characters the units of a transaction that declared `n` leave it open;
otherwise it overflows. -/
theorem repacks_or_overflowed {c : Config.Params} {s : State} (n : Nat) {us : List Byte}
    (hm : s.mode = .idle) (hf : s.fault = .noFault) (hus : ∀ u ∈ us, u.toNat ≤ 127) :
    (OutqHolds c ((7 * us.length - 7 * n % 8) / 6) ∧ Repacks (7 * n % 8) us
      (afterElements c (.d64Begin (BitVec.ofNat 8 (n % 8))) .d64Unit us s)) ∨
    (¬ OutqHolds c ((7 * us.length - 7 * n % 8) / 6) ∧
      Overflowed (afterElements c (.d64Begin (BitVec.ofNat 8 (n % 8))) .d64Unit us s)) := by
  induction us using List.reverseRecOn with
  | nil =>
    left
    have hwf : (Instr.d64Begin (BitVec.ofNat 8 (n % 8))).WellFormed := by
      rw [d64Begin_wellFormed_iff, residueOperand_toNat]
      omega
    have hbegin : effect c (.d64Begin (BitVec.ofNat 8 (n % 8))) (countWord s) = _ :=
      d64Begin_declares (s := countWord s) hf hm n
    have hinit := repacks_init (s := countWord s) hf (BitVec.ofNat 3 (7 * n))
    rw [BitVec.toNat_ofNat] at hinit
    rw [afterElements_nil c _ s hwf, hbegin]
    exact ⟨fun _ _ => by simp, hinit⟩
  | append_singleton us u ih =>
    obtain ⟨hus, hu⟩ := List.forall_mem_append.1 hus
    rw [List.forall_mem_singleton] at hu
    rw [afterElements_concat c _ us u s rfl]
    rcases ih hus with ⟨hcap, h⟩ | ⟨hcap, h⟩
    · have h := h.countWord
      generalize countWord (afterElements c _ .d64Unit us s) = t at h ⊢
      have hcount : t.outq.length + (charsOut u.toNat t).length =
          (7 * (us ++ [u]).length - 7 * n % 8) / 6 := by
        rw [← (h.concat hu).outq_length]
        exact (List.length_append ..).symm
      have hunit : effect c (.d64Unit u) t = _ := d64Unit_emits h.fault h.mode h.len_le h.accBelow hu
      rw [← h.outq_length] at hcap
      rw [hunit, ← hcount, bitsHeldBack]
      rcases emission_cases _ accept hcap with ⟨hroom, hnext⟩ | hover
      · exact .inl ⟨hroom, hnext ▸ h.concat hu⟩
      · exact .inr hover
    · right
      refine ⟨mt (fun hc => hc.mono ?_) hcap, h.after_effect c _⟩
      rw [List.length_append]
      omega

theorem runWords_decodeBase64Words (c : Config.Params) (us : List Byte) (s : State) :
    runWords c (decodeBase64Words us) s = d64End c (countWord
      (afterElements c (.d64Begin (BitVec.ofNat 8 (us.length % 8))) .d64Unit us s)) := by
  rw [decodeBase64Words, runWords_concat, issue_encode c rfl]
  rfl

/-- Settles O40: the units repack as `decode64_ref` does or overflow, and so does D64.END with the
last character and the `=`. -/
theorem decodeBase64TransactionComputesDecode64Ref :
    Obligations.DecodeBase64TransactionComputesDecode64Ref := by
  intro c s us hm hf hus
  rw [← not_outqHolds_iff, runWords_decodeBase64Words]
  change (OutqHolds c _ → _) ∧ _
  rcases repacks_or_overflowed (c := c) us.length hm hf hus with ⟨hunits, h⟩ | ⟨hno, hover⟩
  · have h := h.countWord
    rcases h.d64End_commits_or_overflows c hus rfl hunits with ⟨hcap, hend⟩ | ⟨hno, hover⟩
    · rw [hend]
      exact ⟨fun _ => ⟨h.fault, rfl, h.append_endSymbols hus rfl⟩, fun hno => absurd hcap hno⟩
    · exact ⟨fun hcap => absurd hcap hno, fun _ => hover.1⟩
  · exact ⟨fun hcap => absurd (hcap.mono (by omega)) hno,
      fun _ => (hover.after_effect c .d64End).1⟩

end Sys2Proof.Machine

/-! ### Decode-to-buffer: one unit -/

namespace Sys2Proof.Machine

theorem bufwrite_ok {c : Config.Params} {v : Byte} {s : State} (h : s.ocnt.toNat < (c.bufCap : Nat)) :
    bufwrite c v s =
      .ok { s with bufmem := s.bufmem.write s.ocnt.toNat v, ocnt := s.ocnt + 1 } :=
  if_neg (Nat.not_le_of_lt h)

theorem bufwrite_error {c : Config.Params} {v : Byte} {s : State}
    (h : (c.bufCap : Nat) ≤ s.ocnt.toNat) : bufwrite c v s = .error .outputOverflow :=
  if_pos h

/-- BUFMEM after the unit `u`: the byte that it drives out of the window, if any, stored at index OCNT
(spec/40_accumulator.md R105, R109). -/
def storedBy (u : Nat) (s : State) : Memory :=
  if s.len = 0 then s.bufmem
  else s.bufmem.write s.ocnt.toNat
    (BitVec.ofNat 8 ((s.acc.toNat * 128 + u) / 2 ^ (s.len.toNat - 1)))

theorem read_storedBy (u : Nat) (s : State) (a : Nat) :
    (storedBy u s).read a =
      if a = s.ocnt.toNat ∧ s.len ≠ 0 then
        some (BitVec.ofNat 8 ((s.acc.toNat * 128 + u) / 2 ^ (s.len.toNat - 1)))
      else s.bufmem.read a := by
  rw [storedBy]
  split
  next h0 => simp [h0]
  next h0 =>
    by_cases ha : a = s.ocnt.toNat
    · rw [if_pos ⟨ha, h0⟩, ha, Memory.read_write_same]
    · rw [if_neg (mt And.left ha), Memory.read_write_other _ _ ha]

/-- A DBUF.UNIT that completed (spec/44_decode_buffer.md R191). -/
def buffered (u : Nat) (s : State) : State :=
  accept { bitsKept 7 8 u s with
    bufmem := storedBy u s, ocnt := s.ocnt + (if s.len = 0 then 0 else 1) }

section
variable {c : Config.Params} {u : Byte} {s : State}

/-- A unit that finds the window empty needs no room in BUFMEM, any other the index OCNT. -/
theorem dbufUnit_completes (hf : s.fault = .noFault) (hm : s.mode = .dbuf) (hl : s.len.toNat ≤ 7)
    (ha : s.acc.toNat < 2 ^ s.len.toNat) (hu : u.toNat ≤ 127)
    (hroom : s.len ≠ 0 → s.ocnt.toNat < (c.bufCap : Nat)) :
    dbufUnit c u s = buffered u.toNat s := by
  rw [dbufUnit_runs c u s hf hm hl ha hu, buffered, storedBy]
  by_cases h0 : s.len = 0
  · have hempty : ¬ 0 < s.len.toNat := by simp [h0]
    rw [if_neg hempty, if_pos h0, if_pos h0, ← bitsKept_of_empty (Nat.lt_succ_of_le hu) ha hempty,
      show s.ocnt + 0 = s.ocnt from BitVec.add_zero _]
    rfl
  · have hpending := len_pos_of_ne_zero h0
    have hindex : (bitsKept 7 8 u.toNat s).ocnt.toNat < (c.bufCap : Nat) := hroom h0
    rw [if_pos hpending, if_neg h0, if_neg h0, ← bitsKept_of_pending _ (Nat.lt_succ_of_le hl) hpending,
      bufwrite_ok hindex]
    rfl

/-- A byte that BUFMEM has no index for leaves OutputOverflow's record (spec/60_exceptions.md R225). -/
theorem dbufUnit_overflows (hf : s.fault = .noFault) (hm : s.mode = .dbuf) (hl : s.len.toNat ≤ 7)
    (ha : s.acc.toNat < 2 ^ s.len.toNat) (hu : u.toNat ≤ 127) (h0 : s.len ≠ 0)
    (hfull : (c.bufCap : Nat) ≤ s.ocnt.toNat) :
    dbufUnit c u s = raise .outputOverflow (encode (.dbufUnit u)) s := by
  have hpending := len_pos_of_ne_zero h0
  have hindex : (c.bufCap : Nat) ≤ (bitsKept 7 8 u.toNat s).ocnt.toNat := hfull
  rw [dbufUnit_runs c u s hf hm hl ha hu, if_pos hpending,
    ← bitsKept_of_pending _ (Nat.lt_succ_of_le hl) hpending, bufwrite_error hindex]
  rfl

end

/-- Settles O21: the byte that leaves the window is stored at OCNT and the rest of the window stays. -/
theorem dbufUnitResult : Obligations.DbufUnitResult := by
  intro u s hf hm hl ha hu
  refine ⟨storedBy u.toNat s, buffered u.toNat s, ?_, fun hroom => ?_,
    fun _ => dbufUnit_completes hf hm hl ha hu, read_storedBy u.toNat s⟩
  · simp only [buffered, accept, bitsKept, setWindow, decbUnit_bitsPending hl]
    rfl
  · exact (exec_eq_effect _ s).trans
      (congrArg Host.Outcome.next (dbufUnit_completes hf hm hl ha hu hroom))

end Sys2Proof.Machine

/-! ### The pseudo-instruction decode.buffer -/

namespace Sys2Proof.Machine

/-- BUFMEM holds the bytes `xs` from index 0 on. -/
def Memory.Holds (m : Memory) (xs : List Nat) : Prop :=
  ∀ j, j < xs.length → (m.read j).map BitVec.toNat = xs[j]?

theorem Memory.Holds.isSome {m : Memory} {xs : List Nat} (h : m.Holds xs) {j : Nat}
    (hj : j < xs.length) : (m.read j).isSome := by
  rw [← Option.isSome_map, h j hj, List.getElem?_eq_getElem hj]
  rfl

/-- The next byte is stored behind those held. -/
theorem Memory.Holds.write {m : Memory} {xs : List Nat} (h : m.Holds xs) (v : Byte) :
    (m.write xs.length v).Holds (xs ++ [v.toNat]) := by
  intro j hj
  rw [List.length_append, List.length_singleton] at hj
  rcases Nat.lt_succ_iff_lt_or_eq.1 hj with hlt | rfl
  · rw [Memory.read_write_other m v hlt.ne, List.getElem?_append_left hlt, h j hlt]
  · simp [Memory.read_write_same]

/-- What a unit drives out of the window is stored behind the bytes held. -/
theorem holds_storedBy {s : State} {xs : List Nat} (u : Nat) (h : s.bufmem.Holds xs)
    (hl : s.len.toNat ≤ 7) (hocnt : s.ocnt.toNat = xs.length) :
    (storedBy u s).Holds (xs ++ (groupsOut 7 8 u s).map BitVec.toNat) := by
  rw [storedBy, decbUnit_groupsOut u hl, hocnt]
  split
  next => simpa using h
  next => exact h.write _

theorem regrouped_out_length (w n : Nat) (xs : List Nat) :
    (regrouped w n xs).out.length = w * xs.length / n := groups_length ..

/-- One more element brings to the output the groups that it drives out of the window. -/
theorem WindowHolds.regrouped_out_concat {m : Mode} {w n : Nat} {xs : List Byte} {t : State}
    (h : WindowHolds m w n xs t) (hn : n ≤ 8) {x : Byte} (hx : x.toNat < 2 ^ w) :
    (regrouped w n ((xs ++ [x]).map BitVec.toNat)).out =
      (regrouped w n (xs.map BitVec.toNat)).out ++ (groupsOut w n x.toNat t).map BitVec.toNat := by
  rw [groupsOut_toNat hn, h.shifted hx, groups_mod _ (Nat.mul_div_le _ _), h.len, List.map_append,
    List.map_singleton, regrouped_concat n _ hx, regrouped_len, List.length_map, packed_concat]

/-- A DBUF transaction is open without a fault after the units `us`: the window holds the end of their
stream, and BUFMEM and OCNT its whole bytes (spec/44_decode_buffer.md R191). -/
structure Buffers (us : List Byte) (t : State) : Prop extends WindowHolds .dbuf 7 8 us t where
  ocnt : t.ocnt.toNat = 7 * us.length / 8
  stored : t.bufmem.Holds (regrouped 7 8 (us.map BitVec.toNat)).out

section
variable {c : Config.Params} {us : List Byte} {t : State}

theorem Buffers.countWord (h : Buffers us t) : Buffers us (countWord t) :=
  ⟨h.toWindowHolds.countWord, h.ocnt, h.stored⟩

theorem buffers_init {s : State} (hf : s.fault = .noFault) : Buffers [] (init .dbuf 0 s) :=
  ⟨windowHolds_init hf 0, rfl, fun _ hj => absurd hj (Nat.not_lt_zero _)⟩

theorem Buffers.len_le (h : Buffers us t) : t.len.toNat ≤ 7 :=
  Nat.le_of_lt_succ (h.len_lt (by omega))

/-- With room for its byte a unit leaves the whole bytes of the longer stream. -/
theorem Buffers.concat (h : Buffers us t) {u : Byte} (hu : u.toNat ≤ 127)
    (hroom : t.len ≠ 0 → t.ocnt.toNat < (c.bufCap : Nat)) :
    Buffers (us ++ [u]) (effect c (.dbufUnit u) t) := by
  have heffect : effect c (.dbufUnit u) t = buffered u.toNat t :=
    dbufUnit_completes h.fault h.mode h.len_le h.accBelow hu hroom
  obtain ⟨hwindow, hocnt⟩ := h.after_dbufUnit ((congrArg State.fault heffect).trans h.fault)
  refine ⟨hwindow, ?_, ?_⟩
  · rw [hocnt, h.ocnt, h.len, List.length_append, List.length_singleton]
    omega
  · rw [h.regrouped_out_concat le_rfl (Nat.lt_succ_of_le hu), heffect]
    refine holds_storedBy u.toNat h.stored h.len_le ?_
    rw [h.ocnt, regrouped_out_length, List.length_map]

/-- BUFMEM has room for the byte of the next unit, if any, exactly when it holds the longer stream. -/
theorem Buffers.room_iff (h : Buffers us t) (u : Byte) (hcap : 7 * us.length / 8 ≤ (c.bufCap : Nat)) :
    (t.len ≠ 0 → t.ocnt.toNat < (c.bufCap : Nat)) ↔
      7 * (us ++ [u]).length / 8 ≤ (c.bufCap : Nat) := by
  have hpending : t.len ≠ 0 ↔ 7 * us.length % 8 ≠ 0 := by
    rw [← h.len, Ne, ← BitVec.toNat_inj]
    rfl
  rw [hpending, h.ocnt, List.length_append, List.length_singleton]
  omega

/-- The whole bytes held are the output of `decode_ref`. -/
theorem Buffers.holds_decodeRef (h : Buffers us t) (hus : ∀ u ∈ us, u.toNat ≤ 127) :
    t.bufmem.Holds (decodeRef (us.map BitVec.toNat)) := by
  have hlt : ∀ u ∈ us.map BitVec.toNat, u < 2 ^ 7 :=
    List.forall_mem_map.2 fun u hu => Nat.lt_succ_of_le (hus u hu)
  rw [decodeRef, foldl_decodeRefUnit hlt]
  exact h.stored

/-- Once DBUF.END has published them the host reads the bytes of `decode_ref`
(spec/44_decode_buffer.md R193). -/
theorem Buffers.hostBuf_commit (h : Buffers us t) (hus : ∀ u ∈ us, u.toNat ≤ 127)
    (hcap : 7 * us.length / 8 ≤ (c.bufCap : Nat)) {j : Nat} (hj : j < 7 * us.length / 8) :
    (hostBuf c (commit (publishBuf t)) j).map BitVec.toNat =
      (decodeRef (us.map BitVec.toNat))[j]? := by
  have hholds := h.holds_decodeRef hus
  have hlen : j < (decodeRef (us.map BitVec.toNat)).length := by
    rwa [decodeRef_length, List.length_map]
  have hresult : j < (commit (publishBuf t)).bufResult := hj.trans_eq h.ocnt.symm
  have hread := hostBuf_result (s := commit (publishBuf t)) h.fault hresult (hj.trans_le hcap)
    (hholds.isSome hlen)
  rw [hread]
  exact hholds j hlen

end

/-- With room in BUFMEM for their whole bytes the units leave the transaction open; otherwise it
overflows. -/
theorem buffers_or_overflowed {c : Config.Params} {s : State} {us : List Byte} (hm : s.mode = .idle)
    (hf : s.fault = .noFault) (hus : ∀ u ∈ us, u.toNat ≤ 127) :
    (7 * us.length / 8 ≤ (c.bufCap : Nat) ∧
      Buffers us (afterElements c .dbufBegin .dbufUnit us s)) ∨
    ((c.bufCap : Nat) < 7 * us.length / 8 ∧
      Overflowed (afterElements c .dbufBegin .dbufUnit us s)) := by
  induction us using List.reverseRecOn with
  | nil =>
    left
    have hbegin : effect c .dbufBegin (countWord s) = _ := dbufBegin_idle (s := countWord s) hf hm
    rw [afterElements_nil c _ s rfl, hbegin]
    exact ⟨Nat.zero_le _, buffers_init (s := withdrawBuf (countWord s)) hf⟩
  | append_singleton us u ih =>
    obtain ⟨hus, hu⟩ := List.forall_mem_append.1 hus
    rw [List.forall_mem_singleton] at hu
    rw [afterElements_concat c _ us u s rfl]
    rcases ih hus with ⟨hcap, h⟩ | ⟨hcap, h⟩
    · have h := h.countWord
      generalize countWord (afterElements c _ .dbufUnit us s) = t at h ⊢
      have hroom := h.room_iff u hcap
      by_cases hfits : 7 * (us ++ [u]).length / 8 ≤ (c.bufCap : Nat)
      · exact .inl ⟨hfits, h.concat hu (hroom.2 hfits)⟩
      · right
        obtain ⟨h0, hfull⟩ := Classical.not_imp.1 (mt hroom.1 hfits)
        have heffect : effect c (.dbufUnit u) t = _ :=
          dbufUnit_overflows h.fault h.mode h.len_le h.accBelow hu h0 (Nat.le_of_not_lt hfull)
        exact ⟨Nat.lt_of_not_le hfits, heffect ▸ overflowed_raise _ t⟩
    · right
      refine ⟨hcap.trans_le (Nat.div_le_div_right ?_), h.after_effect c _⟩
      simp

theorem runWords_decodeBufferWords (c : Config.Params) (us : List Byte) (s : State) :
    runWords c (decodeBufferWords us) s =
      dbufEnd (countWord (afterElements c .dbufBegin .dbufUnit us s)) := by
  rw [decodeBufferWords, runWords_concat, issue_encode c rfl]
  rfl

/-- Settles O41: the units store the whole bytes or overflow, and DBUF.END publishes and commits. -/
theorem decodeBufferTransactionFillsTheBuffer :
    Obligations.DecodeBufferTransactionFillsTheBuffer := by
  intro c s us hm hf hus
  rw [runWords_decodeBufferWords]
  rcases buffers_or_overflowed (c := c) hm hf hus with ⟨hcap, h⟩ | ⟨hno, hover⟩
  · have h := h.countWord
    refine ⟨fun _ => ?_, fun hno => absurd hcap (Nat.not_le_of_lt hno)⟩
    rw [dbufEnd_open h.fault h.mode]
    exact ⟨h.fault, rfl, h.ocnt, fun _ => h.hostBuf_commit hus hcap⟩
  · exact ⟨fun hcap => absurd hcap (Nat.not_le_of_lt hno),
      fun _ => (hover.after_effect c .dbufEnd).1⟩

/-- Settles O50: both transactions commit the bytes of `decode_ref`. -/
theorem bufferAndStreamAgree : Obligations.BufferAndStreamAgree := by
  intro c s us hm hf hus hcap hroom
  obtain ⟨_, _, hcount, hread⟩ :=
    (decodeBufferTransactionFillsTheBuffer c s us hm hf hus).1 hcap
  obtain ⟨_, _, _, hout, _⟩ :=
    (decodeBytesTransactionComputesDecodeRef c s us hm hf hus).1 hroom
  refine ⟨hcount, ?_, fun j hj => ?_⟩
  · simpa [decodeRef_length] using congrArg List.length hout
  · apply Option.map_injective BitVec.toNat_injective
    rw [hread j hj, ← hout, List.getElem?_map]

end Sys2Proof.Machine

/-! ### Illegal words -/

namespace Sys2Proof

/-- The opcode map refuses the unused opcodes, a nonzero `data` without an operand, and a residue that is
too wide (spec/30_encoding.md R76). -/
theorem decodeOp_illegal_iff (op : BitVec 4) (data : Byte) :
    (∃ why, decodeOp op data = .illegal why) ↔
      op ∈ [0x0#4, 0xD#4, 0xE#4, 0xF#4] ∨
      (op ∈ [0x1#4, 0x3#4, 0x4#4, 0x6#4, 0x9#4, 0xA#4, 0xC#4] ∧ data ≠ 0#8) ∨
      (op = 0x7#4 ∧ data.extractLsb' 3 5 ≠ 0#5) := by
  have hop {n : Nat} (h : op.toNat = n) : op = BitVec.ofNat 4 n := by simp [← h]
  unfold decodeOp
  split
  case h_1 h | h_3 h | h_4 h | h_6 h | h_9 h | h_10 h | h_12 h =>
    by_cases hd : data = 0#8 <;> simp [hop h, withoutOperand, hd]
  case h_2 h | h_5 h | h_8 h | h_11 h =>
    simp [hop h]
  case h_7 h =>
    by_cases hd : data.extractLsb' 3 5 = 0#5 <;> simp [hop h, hd]
  case h_13 =>
    have hunused : op ∈ [0x0#4, 0xD#4, 0xE#4, 0xF#4] := by
      have := op.isLt
      simp only [List.mem_cons, List.not_mem_nil, or_false, ← BitVec.toNat_inj, BitVec.toNat_ofNat,
        imp_false] at *
      omega
    exact iff_of_true ⟨_, rfl⟩ (.inl hunused)

/-- `data[7:3]` is a field of the word too (spec/30_encoding.md R71). -/
theorem dataField_high_bits (w : Word) : (dataField w).extractLsb' 3 5 = w.extractLsb' 3 5 := by
  apply BitVec.eq_of_toNat_eq
  simp only [dataField, BitVec.extractLsb'_toNat, Nat.shiftRight_eq_div_pow]
  omega

theorem decode_illegal_iff (w : Word) :
    (∃ why, decode w = .illegal why) ↔
      auxField w ≠ 0 ∨ ∃ why, decodeOp (opField w) (dataField w) = .illegal why := by
  unfold decode
  split
  next haux => exact ⟨.inr, fun h => h.resolve_left (absurd haux)⟩
  next haux => exact iff_of_true ⟨_, rfl⟩ (.inl haux)

end Sys2Proof

namespace Sys2Proof.Machine

/-- While no fault is recorded an illegal word leaves its record (spec/60_exceptions.md R222). -/
theorem illegalCommand_raises {w : Word} {s : State} (hf : s.fault = .noFault) :
    illegalCommand w s = raise .illegalCommand w s :=
  if_pos hf

/-- Settles O4: the decoder refuses a word for its `aux` or by the opcode map, and running it is
IllegalCommand. -/
theorem illegalWordsRaiseIllegalCommand : Obligations.IllegalWordsRaiseIllegalCommand := by
  refine ⟨fun w => ?_, fun w s ⟨why, hw⟩ hf => ?_, rfl⟩
  · rw [decode_illegal_iff, decodeOp_illegal_iff, dataField_high_bits]
    exact or_left_comm
  · rw [runWord_illegal s hw, illegalCommand_raises hf]
    rfl

/-! ### The outcome of a step -/

theorem step_idle {s : State} (h : s.input = []) : step s = .next s := by
  rw [step, takeEvent, h]

theorem step_reset {s : State} {rest : List HostEvent} (h : s.input = .reset :: rest) :
    step s = .next (resetCodec { s with input := rest }) := by
  rw [step, takeEvent, h]

/-- Settles O7: one case per kind of pending event. -/
theorem everyStepAnswersANextState : Obligations.EveryStepAnswersANextState := by
  refine ⟨fun s => ?_, fun i s => ⟨_, exec_eq_effect i s⟩, fun _ => step_idle⟩
  match h : s.input with
  | [] => exact ⟨_, step_idle h⟩
  | .reset :: rest => exact ⟨_, step_reset h⟩
  | .command w :: rest => exact ⟨_, stepIssuesTheWord s w rest h⟩

/-! ### The fault record -/

/-- While FAULT is set a command word is ignored (spec/60_exceptions.md R230). -/
theorem issue_ignored (c : Config.Params) (w : Word) {s : State} (hf : s.fault ≠ .noFault) :
    issue c w s = s := by
  rcases issue_cases c w s with ⟨_, h⟩ | ⟨h, _⟩ | ⟨_, _, h, _⟩
  · exact h
  · exact absurd h hf
  · exact absurd h hf

theorem classify_of_fault {s : State} (hf : s.fault ≠ .noFault) : classify s = .faulted :=
  if_neg hf

/-- Settles O10: the step issues the word, which is ignored. -/
theorem faultedBlockIgnoresEveryWord : Obligations.FaultedBlockIgnoresEveryWord := by
  intro s w rest hin hf
  have hignored := issue_ignored Config.params w (s := takeWord rest s) hf
  exact ⟨(stepIssuesTheWord s w rest hin).trans (congrArg Host.Outcome.next hignored),
    classify_of_fault hf⟩

/-- A command that completes records no fault. -/
theorem Completed.fault_eq {c : Config.Params} {i : Instr} {s t : State} (h : Completed c i s t) :
    t.fault = s.fault := by
  cases h <;> rfl

theorem issue_illegal (c : Config.Params) {w : Word} {why : Illegal} (s : State)
    (h : decode w = .illegal why) : issue c w s = illegalCommand w s := by
  rw [issue, h]

theorem issue_command (c : Config.Params) {w : Word} {i : Instr} (s : State)
    (h : decode w = .command i) : issue c w s = effect c i s := by
  rw [issue, h]

/-- A word that leaves a fault leaves that fault's record for itself, and nothing else
(spec/60_exceptions.md R228). -/
theorem issue_eq_raise {c : Config.Params} {w : Word} {s : State} (hf : s.fault = .noFault)
    (h : (issue c w s).fault ≠ .noFault) : issue c w s = raise (issue c w s).fault w s := by
  cases hd : decode w with
  | illegal why => rw [issue_illegal c s hd, illegalCommand_raises hf, raise_fault]
  | command i =>
    rw [issue_command c s hd] at h ⊢
    rcases effect_cases c i s with ⟨hne, _⟩ | ⟨_, f, _, he⟩ | ⟨_, _, _, he⟩
    · exact absurd hf hne
    · rw [he, ← eq_encode_of_decode hd, raise_fault]
    · exact absurd (he.fault_eq.trans hf) h

/-- After a fault the host reads a free value wherever BUFMEM has an index (log entry 6). -/
theorem hostBuf_of_fault {c : Config.Params} {s : State} {i : Nat} (hf : s.fault ≠ .noFault)
    (hi : i < (c.bufCap : Nat)) : hostBuf c s i = some (Config.bufUnspecified s.pos i) := by
  simp [hostBuf, bufCommitted, hf, hi]

/-- Settles O27: the state after is `raise` of the state before, and faulted. -/
theorem faultLeavesOnlyItsRecord : Obligations.FaultLeavesOnlyItsRecord := by
  intro c w s hf h
  refine ⟨issue_eq_raise hf h, fun i hi => ?_⟩
  rw [hostBuf_of_fault h hi, (issue_port c w s).2]

/-! ### Each fault of a decoded command -/

/-- Settles O22: the MODE named in the statement is `requiredMode`. -/
theorem wrongModeRaisesSequenceError : Obligations.WrongModeRaisesSequenceError := by
  refine ⟨fun i s hw hf hm => ?_, rfl⟩
  have hmode : s.mode ≠ requiredMode i := hm
  rw [exec_eq_effect, effect_wrong_mode _ i s hf hmode hw]
  rfl

/-- The common step of a command whose own effect raises a fault. -/
theorem runCommand_error {i : Instr} {required : Mode} {f : State → Except FaultCode State}
    {s : State} {e : FaultCode} (hf : s.fault = .noFault) (hm : s.mode = required)
    (h : f s = .error e) : runCommand i required f s = raise e (encode i) s := by
  rw [runCommand_runs hf hm, h, conclude_error]

/-- D64.END with a wrong number of units leaves LengthMismatch's record (spec/60_exceptions.md R226). -/
theorem d64End_raises_lengthMismatch (c : Config.Params) {s : State} (hf : s.fault = .noFault)
    (hm : s.mode = .d64) (hk : (7 * s.icnt.toNat) % 8 ≠ s.p.toNat) :
    d64End c s = raise .lengthMismatch (encode .d64End) s :=
  runCommand_error hf hm (if_pos (decide_eq_true hk))

/-- Settles O24: the length check comes before any output. -/
theorem wrongLengthRaisesLengthMismatch : Obligations.WrongLengthRaisesLengthMismatch :=
  ⟨fun _ hf hm hk => congrArg Host.Outcome.next (d64End_raises_lengthMismatch _ hf hm hk), rfl⟩

/-- `i` is the DECB.UNIT, D64.UNIT or DBUF.UNIT of `u`. -/
def IsUnit7 (i : Instr) (u : Byte) : Prop := i = .decbUnit u ∨ i = .d64Unit u ∨ i = .dbufUnit u

/-- In its MODE each of them checks its unit first (spec/40_accumulator.md R110). -/
theorem IsUnit7.raises_invalidInput {i : Instr} {u : Byte} (hi : IsUnit7 i u) (c : Config.Params)
    {s : State} (hf : s.fault = .noFault) (hm : s.mode = requiredMode i) (hu : 127 < u.toNat) :
    effect c i s = raise .invalidInput (encode i) s := by
  have hu : ¬ u.toNat ≤ 127 := Nat.not_le_of_lt hu
  rcases hi with rfl | rfl | rfl
  · rw [effect, decbUnit]
    exact runCommand_checkUnit_raises _ hf hm hu
  · rw [effect, d64Unit]
    exact runCommand_checkUnit_raises _ hf hm hu
  · rw [effect, dbufUnit]
    exact runCommand_checkUnit_raises _ hf hm hu

/-- A command that no word decodes to has the effect of an illegal word (log entry 9). -/
theorem effect_illFormed (c : Config.Params) {i : Instr} (s : State) (hw : ¬ i.WellFormed) :
    effect c i s = illegalCommand (encode i) s := by
  cases i with
  | d64Begin k => exact if_neg (mt (d64Begin_wellFormed_iff k).2 hw)
  | _ => exact absurd rfl hw

/-- What a fault left by the command `i` says of it and of the state `s` before it
(spec/60_exceptions.md R222 to R226). -/
def FaultCause (c : Config.Params) (i : Instr) (s : State) : FaultCode → Prop
  | .noFault => True
  | .illegalCommand => ¬ i.WellFormed
  | .sequenceError => s.mode ≠ requiredMode i
  | .invalidInput => ∃ u : Byte, 127 < u.toNat ∧ IsUnit7 i u
  | .lengthMismatch => i = .d64End ∧ (7 * s.icnt.toNat) % 8 ≠ s.p.toNat
  | .outputOverflow => c.outqCap = none → ∃ u, i = .dbufUnit u

/-- Every fault that a command leaves has its cause. -/
theorem effect_faultCause (c : Config.Params) (i : Instr) {s : State} (hf : s.fault = .noFault) :
    FaultCause c i s (effect c i s).fault := by
  by_cases hw : i.WellFormed
  · by_cases hm : s.mode = requiredMode i
    · rcases runs_cases c i s hf hm hw with h | ⟨hunit, h⟩ | ⟨hi, hk, h⟩ | ⟨_, _, hcap, h⟩
      · rw [h.fault_eq, hf]
        trivial
      · rw [h]
        exact hunit
      · rw [h]
        exact ⟨hi, hk⟩
      · rw [h]
        exact hcap
    · rw [effect_wrong_mode c i s hf hm hw]
      exact hm
  · rw [effect_illFormed c s hw, illegalCommand_raises hf]
    exact hw

/-- The word of a command is its opcode above its operand (spec/30_encoding.md R80). -/
theorem encode_eq_add (i : Instr) :
    encode i = BitVec.ofNat 16 (i.opcode.toNat * 4096) + i.data.setWidth 16 := by
  apply BitVec.eq_of_toNat_eq
  rw [encode_toNat, BitVec.toNat_add, BitVec.toNat_setWidth, BitVec.toNat_ofNat]
  have := i.data.isLt
  have := i.opcode.isLt
  omega

/-- The word of D64.UNIT (spec/43_decode_base64.md R172). -/
theorem encode_d64Unit (u : Byte) : encode (.d64Unit u) = 0x8000#16 + u.setWidth 16 := by
  simp [encode_eq_add, Instr.opcode, Instr.data]

/-- The word of DBUF.UNIT (spec/44_decode_buffer.md R191). -/
theorem encode_dbufUnit (u : Byte) : encode (.dbufUnit u) = 0xB000#16 + u.setWidth 16 := by
  simp [encode_eq_add, Instr.opcode, Instr.data]

/-- Settles O23: such a unit fails its check, and no other fault has that code. -/
theorem unitWithBit7RaisesInvalidInput : Obligations.UnitWithBit7RaisesInvalidInput := by
  have hraises {i : Instr} {u : Byte} {s : State} (hi : IsUnit7 i u) (hu : 127 < u.toNat)
      (hf : s.fault = .noFault) (hm : s.mode = requiredMode i) :
      exec i s = .next (raise .invalidInput (encode i) s) := by
    rw [exec_eq_effect, hi.raises_invalidInput _ hf hm hu]
  refine ⟨fun u s hu hf => ?_, fun c i s hf h => ?_, rfl⟩
  · rw [← encode_decbUnit, ← encode_d64Unit, ← encode_dbufUnit]
    exact ⟨hraises (.inl rfl) hu hf, hraises (.inr (.inl rfl)) hu hf,
      hraises (.inr (.inr rfl)) hu hf⟩
  · have hcause := effect_faultCause c i hf
    rwa [h] at hcause

/-- Settles O25: each command is an emission or a write that does not fit; the rest is the cause of an
OutputOverflow. -/
theorem fullOutputRaisesOutputOverflow : Obligations.FullOutputRaisesOutputOverflow := by
  refine ⟨fun c s hf ha h0 => ⟨fun b hm hl hno => ?_, fun hm hpos hl hno => ?_,
    fun u hu hm hpos hl hno => ?_, fun u hu hm hl hno => ?_, fun hm hk hpl hl hno => ?_,
    fun u hu hm hpos hl hfull => ?_⟩, fun c i s hcap hf h => ?_, rfl⟩
  · rw [← groupsOut_length 8 7 b.toNat s] at hno
    exact (encByte_emits b hf hm hl ha).trans (conclude_emitList_of_not_roomFor _ h0 hno)
  · have hlen : (lastUnit s).length = 1 := by simp [lastUnit, hpos]
    rw [← hlen] at hno
    exact (encEnd_runs c s hf hm hl ha).trans (conclude_emitList_of_not_roomFor _ h0 hno)
  · have hl8 := Nat.lt_succ_of_le hl
    have hlen : (groupsOut 7 8 u.toNat s).length = 1 := by simp [groupsOut_of_pending _ hl8 hpos]
    rw [← hlen] at hno
    exact (decbUnit_emitsGroups c hu s hf hm hl8 ha).trans
      (conclude_emitList_of_not_roomFor _ h0 hno)
  · rw [← charCount, ← charsOut_length u.toNat s] at hno
    exact (d64Unit_emits hf hm hl ha hu).trans (conclude_emitList_of_not_roomFor _ h0 hno)
  · have hlen : (d64EndSymbols s).length = 1 + (4 - (s.ocnt.toNat + 1) % 4) % 4 := by
      simp [d64EndSymbols, Nat.ne_of_gt hpl, padCount, Nat.add_comm]
    rw [← hlen] at hno
    exact (d64End_runs c s hf hm hk hpl.le hl ha).trans (conclude_emitList_of_not_roomFor _ h0 hno)
  · exact dbufUnit_overflows hf hm hl ha hu (fun h => by simp [h] at hpos) hfull
  · have hcause := effect_faultCause c i hf
    rw [h] at hcause
    exact hcause hcap

/-- A well-formed command in its MODE, with a good unit and a right length, leaves no fault but
OutputOverflow (spec/60_exceptions.md R227). -/
theorem effect_fault_of_checks (c : Config.Params) {i : Instr} {s : State} (hf : s.fault = .noFault)
    (hw : i.WellFormed) (hm : s.mode = requiredMode i)
    (hunit : ¬ ∃ u : Byte, 127 < u.toNat ∧ IsUnit7 i u)
    (hlength : i = .d64End → (7 * s.icnt.toNat) % 8 = s.p.toNat) :
    (effect c i s).fault = .noFault ∨ (effect c i s).fault = .outputOverflow := by
  have hcause := effect_faultCause c i hf
  cases h : (effect c i s).fault <;> rw [h] at hcause
  case noFault => exact .inl rfl
  case outputOverflow => exact .inr rfl
  case illegalCommand => exact absurd hw hcause
  case sequenceError => exact absurd hm hcause
  case invalidInput => exact absurd hcause hunit
  case lengthMismatch => exact absurd (hlength hcause.1) hcause.2

/-- Settles O26: each check that fails raises its own fault, and when none does the causes leave only
OutputOverflow. -/
theorem faultsFollowThePriority : Obligations.FaultsFollowThePriority := by
  refine fun c w s => ⟨issue_ignored c w, fun hf => ⟨fun why hd => ?_, fun i hd => ?_⟩⟩
  · rw [issue_illegal c s hd, illegalCommand_raises hf, raise_fault]
  · have hw : i.WellFormed := ((decode_eq_command_iff w i).1 hd).2
    rw [issue_command c s hd]
    refine ⟨fun hm => ?_, fun hm => ⟨fun ⟨u, hu, hi⟩ => ?_, fun hi hk => ?_,
      effect_fault_of_checks c hf hw hm⟩⟩
    · rw [effect_wrong_mode c i s hf hm hw, raise_fault]
    · rw [IsUnit7.raises_invalidInput hi c hf hm hu, raise_fault]
    · subst hi
      rw [effect, d64End_raises_lengthMismatch c hf hm hk, raise_fault]

end Sys2Proof.Machine

/-! ### The reset step -/

namespace Sys2Proof.Machine

/-- Settles O9: a reset pulse puts every register at its reset value; of the other steps, one with
nothing pending changes nothing, and a command word is ignored while FAULT is set. -/
theorem resetStepWritesEveryRegister : Obligations.ResetStepWritesEveryRegister := by
  refine ⟨fun s rest hin => step_reset hin, fun s t hstep hf ht => ?_⟩
  rcases step_cases hstep with ⟨_, rfl⟩ | ⟨rest, hin, _⟩ | ⟨w, rest, _, rfl⟩
  · exact absurd ht hf
  · exact ⟨rest, hin⟩
  · have hignored := issue_ignored Config.params w (s := takeWord rest s) hf
    rw [hignored, takeWord_fault] at ht
    exact absurd ht hf

end Sys2Proof.Machine
